-- ==== Sys2Proof/Config.lean ====
section
/-! DEFINITION. The parameters of the block (R6), their values on the spec's own platform, and the free values of the
model. -/

namespace Sys2Proof

/-- The parameters of R6, which "a model takes as an argument": every operation takes them from `State.params`.
Logs 5, 6. -/
structure Params where
  /-- XLEN, width in bits of every host-visible register (R6, D3). -/
  xlen : Nat
  /-- HB_MAX, the largest legal `header_bits` (R6, D8). -/
  hbMax : Nat
  /-- CPW, width in bits of one element of MSG (R6, D11). -/
  cpw : Nat
  /-- PIX_BYTES, number of bytes the pixel memory implements (R6, D18). -/
  pixBytes : Nat
  /-- MSG_DEPTH, number of elements the message memory implements (R6, D18). -/
  msgDepth : Nat
  deriving DecidableEq, Repr

/-- What the spec says of the parameters' values: a decoded length fits MSGLEN (D8), a message element is wider than 8
bits (R37), and every constant the block itself puts into a register, 32 being the largest (R38), fits XLEN bits (R10).
DEDUCED, log 6. -/
structure Params.Legal (p : Params) : Prop where
  xlen : 32 < 2 ^ p.xlen
  hbMax : p.hbMax ≤ p.xlen
  cpw : 8 < p.cpw

/-- PIX_BYTES of the platform: OPEN (R6, D18). Uninterpreted: nothing can be proved of its value. Log 5. -/
opaque Config.pixBytes : Nat

/-- MSG_DEPTH of the platform: OPEN (R6, D18). As `Config.pixBytes`. Log 5. -/
opaque Config.msgDepth : Nat

/-- The defaults of R6: XLEN = HB_MAX = CPW = 32, and the platform's own memory sizes. They only stand in `State.reset`. -/
def Config.params : Params where
  xlen := 32
  hbMax := 32
  cpw := 32
  pixBytes := Config.pixBytes
  msgDepth := Config.msgDepth

/-- FREE VALUE (R152, U12, D16): whether, in the `draw`-th operation that a reset abandoned, the write to the PIX
byte (or MSG element) at `addr` had been performed before the reset. Uninterpreted. Log 11. -/
opaque Config.landed : Nat → Nat → Bool

end Sys2Proof
end

