-- ==== Sys2Proof/Word.lean ====
section
/-! DEFINITION. The two units of LSB-CORE whose width is fixed: the command word and a channel byte. Registers and
message elements have the widths XLEN and CPW, which are parameters, so they are naturals (R7, R10). -/

namespace Sys2Proof

/-- A command word: "a command is always exactly one 32-bit write" (R60, R65). -/
abbrev Word := BitVec 32

/-- One channel of a pixel, "a single byte" (R12, R36). -/
abbrev Byte := BitVec 8

end Sys2Proof
end

