-- ==== Sys2Proof/Syntax.lean ====
section
/-! DEFINITION. The instructions (one per row of spec/opcode_table.json), the command word's fields, the registers'
names, and what can reach the block from outside. -/

namespace Sys2Proof

/-- The three operations of the block (R2, R61). No operand stands in the command word (R60, R63). -/
inductive Instr where
  | locate
  | encode
  | decode
  deriving DecidableEq, Repr

/-- The two fields of the one command format CMD (R60). -/
structure CmdFields where
  /-- ZERO, bits [31:2]: must be 0. -/
  zero : BitVec 30
  /-- OP, bits [1:0]: operation select. -/
  op : BitVec 2
  deriving DecidableEq, Repr

/-- The thirteen host-visible registers (R21). -/
inductive Reg where
  | cmd | status | width | height | channels | stride | bpc | hdrbits | msglen | bitidx | locCh | locCol | locRow
  deriving DecidableEq, Repr

/-- Width of an access to REG; only `word` is defined (R40, R47). `word` is 32 bits where XLEN is 32; for another XLEN
the spec does not say, and `word` is one whole register: DESIGN CHOICE, log 16. -/
inductive AccessSize where
  | byte | half | word
  deriving DecidableEq, Repr

/-- One bus transaction (R71): a read or a write of one unit of one of the three spaces (R40). -/
inductive Transaction where
  /-- `WR`: write `value` to the register at byte offset `offset`. -/
  | regWrite (offset : Nat) (size : AccessSize) (value : Nat)
  /-- `RD`: read the register at byte offset `offset`. -/
  | regRead (offset : Nat) (size : AccessSize)
  /-- `PIXWR`: write one byte of PIX. -/
  | pixWrite (offset : Nat) (value : Byte)
  /-- `PIXRD`: read one byte of PIX. -/
  | pixRead (offset : Nat)
  /-- `MSGWR`: write one element of MSG. -/
  | msgWrite (index : Nat) (value : Nat)
  /-- `MSGRD`: read one element of MSG. -/
  | msgRead (index : Nat)
  deriving DecidableEq, Repr

/-- What can happen to the block from outside, one after the other. -/
inductive Event where
  /-- A transaction of the host; a word write to CMD runs a whole operation (R62). -/
  | access (t : Transaction)
  /-- A write of `command` to CMD, while whose operation runs other agents make the accesses `others` (R52, R146, R154). -/
  | shared (command : Nat) (others : List Transaction)
  /-- A reset while the engine is idle (R150, R151). -/
  | reset
  /-- A write of `command` to CMD, whose operation a reset abandons (R152). -/
  | resetDuring (command : Nat)
  deriving DecidableEq, Repr

end Sys2Proof
end

