-- ==== Sys2Proof/WellFormed.lean ====
section
/-! DEFINITION. The checks on terms: the command word's fields (R60, R64) and the host's transactions (R10, R40, R47). -/

namespace Sys2Proof

/-- A command word is legal when its ZERO field is 0 and its OP selects an operation (R60, R61, R64). -/
def CmdFields.wellFormed (c : CmdFields) : Bool :=
  c.zero == 0 && c.op != 0

/-- A transaction is well formed when the spec defines its kind of access: every PIX and MSG access has the one
width of its space (R41, R43); a REG access must be a whole 32-bit access at a multiple of 4 (R40, R47); a register is
written with a value below 2^XLEN, an element of MSG with one below 2^CPW (R10, R21, R37). -/
def Transaction.wellFormed (p : Params) : Transaction → Bool
  | .regWrite offset size v => size == .word && offset % 4 == 0 && decide (v < 2 ^ p.xlen)
  | .regRead offset size => size == .word && offset % 4 == 0
  | .pixWrite _ _ => true
  | .pixRead _ => true
  | .msgWrite _ v => decide (v < 2 ^ p.cpw)
  | .msgRead _ => true

/-- Every instruction is well formed: none has an operand (R60, R63). -/
def Instr.wellFormed : Instr → Bool
  | .locate => true
  | .encode => true
  | .decode => true

end Sys2Proof
end

