-- ==== Sys2Proof/Decode.lean ====
section
/-! DEFINITION. Decoding and encoding the command word (R60, R61, R64, R65). -/

namespace Sys2Proof

/-- Why a value is no command (R64). All are reported alike, as BadCommand (R139). -/
inductive BadWord where
  /-- A bit of ZERO, bits [31:2], is set. -/
  | zeroFieldSet
  /-- OP is `00`, which selects nothing. -/
  | noOperation
  /-- The value has more than 32 bits, so it is no command word (R65); possible only where XLEN is above 32. -/
  | tooLong
  deriving DecidableEq, Repr

/-- The fields of a command word: ZERO = bits [31:2], OP = bits [1:0] (R60). -/
def cmdFields (w : Word) : CmdFields :=
  { zero := w.extractLsb' 2 30, op := w.extractLsb' 0 2 }

/-- The word with the given fields: the concatenation of ZERO and OP (R9, R60). -/
def cmdWord (c : CmdFields) : Word :=
  c.zero ++ c.op

/-- The operation an OP value selects (R61). -/
def opInstr (op : BitVec 2) : Option Instr :=
  if op = 0b01#2 then some .locate
  else if op = 0b10#2 then some .encode
  else if op = 0b11#2 then some .decode
  else none

/-- The OP value of an operation (R61). -/
def instrOp : Instr → BitVec 2
  | .locate => 0b01#2
  | .encode => 0b10#2
  | .decode => 0b11#2

/-- The decoder, total on all words: the whole word is matched (R61), everything else is rejected by name (R64). -/
def decodeWord (w : Word) : Except BadWord Instr :=
  if (cmdFields w).zero ≠ 0 then .error .zeroFieldSet
  else
    match opInstr (cmdFields w).op with
    | some i => .ok i
    | none => .error .noOperation

/-- The encoder: ZERO is 0 and OP selects the operation (R60, R61). -/
def encodeWord (i : Instr) : Word :=
  cmdWord { zero := 0, op := instrOp i }

/-- The decoder on the value a host write to CMD carries, a natural: a command is exactly one 32-bit word (R60, R65),
and every other value is illegal (R64). Log 14. -/
def decodeValue (v : Nat) : Except BadWord Instr :=
  if v < 2 ^ 32 then decodeWord (BitVec.ofNat 32 v) else .error .tooLong

/-- The instruction the decoder reads from a word given as the opcode table numbers it: `nbits` bits of `w`. -/
def decodeTableWord (nbits w : Nat) : Option Instr :=
  match decodeValue (w % 2 ^ nbits) with
  | .ok i => some i
  | .error _ => none

end Sys2Proof
end

