-- ==== Sys2Proof/Machine/State.lean ====
section
/-! DEFINITION. The state of LSB-CORE (R20 to R39), its reset value (R38), and the reasons a step can stop. -/

namespace Sys2Proof.Machine

/-- Why the machine stops with a fault: the situations of R41 and R43 in which "the model gives it no step"
(U9, U10). All are safe: a run that meets one has no next state, so nothing is claimed about it. Logs 7, 8. -/
inductive Fault where
  /-- A PIX access at `offset` ≥ PIX_BYTES (R41, U9). Raised by the host's PIXRD and PIXWR, by ENCODE and by DECODE. Safe. -/
  | pixOutside (offset : Nat)
  /-- A read of a PIX byte that nothing has written (R41, U10). Raised by PIXRD, ENCODE and DECODE. Safe. -/
  | pixUnwritten (offset : Nat)
  /-- A MSG access at `index` ≥ MSG_DEPTH (R43, U9). Raised by MSGRD, MSGWR, ENCODE and DECODE. Safe. -/
  | msgOutside (index : Nat)
  /-- A read of a MSG element that nothing has written (R43, U10). Raised by MSGRD and ENCODE. Safe. -/
  | msgUnwritten (index : Nat)
  deriving DecidableEq, Repr

/-- Why the model refuses an event. All are safe: the run has no next state. -/
inductive Refusal where
  /-- An instruction without a meaning; raised by no arm of `exec` (all three are modelled). Safe. -/
  | notModelled (mnemonic : String)
  /-- A REG access that is not a whole, aligned 32-bit access (R47, U11). Raised by the host's WR and RD. Safe. -/
  | partialRegAccess (offset : Nat)
  /-- A host write of a value of more than XLEN bits to a register or of more than CPW bits to an element of MSG: no such
  transaction exists on the bus (R10, R21, R37). Raised by the host's WR and MSGWR and by the CMD write. Log 6. Safe. -/
  | valueTooWide (value : Nat)
  /-- Another agent broke the exclusive access rule while an operation ran (R52, R62, U8, U11, D25).
  Raised by the event `shared`. Safe. -/
  | sharedAccess (t : Transaction)
  deriving DecidableEq, Repr

/-- The machine's state. A register holds a natural below 2^XLEN and an element of MSG one below 2^CPW (R10, R21, R37):
`State.Inv` of Safety.lean, which every step keeps. The memories are lists of (address, content), addresses strictly
rising; an address that is not listed has been given no value (R38, D22). -/
structure State where
  /-- STATUS, offset 0x04: ERR in bits [2:0] (R23). -/
  status : Nat
  /-- WIDTH, offset 0x08 (R24). -/
  width : Nat
  /-- HEIGHT, offset 0x0C (R25). -/
  height : Nat
  /-- CHANNELS, offset 0x10 (R26). -/
  channels : Nat
  /-- STRIDE, offset 0x14 (R27). -/
  stride : Nat
  /-- BPC, offset 0x18 (R28). -/
  bpc : Nat
  /-- HDRBITS, offset 0x1C (R29). -/
  hdrbits : Nat
  /-- MSGLEN, offset 0x20 (R31). -/
  msglen : Nat
  /-- BITIDX, offset 0x24 (R32). -/
  bitidx : Nat
  /-- LOC_CH, offset 0x28 (R34). -/
  locCh : Nat
  /-- LOC_COL, offset 0x2C (R34). -/
  locCol : Nat
  /-- LOC_ROW, offset 0x30 (R34). -/
  locRow : Nat
  /-- The running bit counter, a natural of unbounded width whose values stay below 2^(XLEN+4), 2^36 by default (R8, R30). -/
  k : Nat
  /-- PIX, the pixel memory (R36). -/
  pix : List Host.Cell
  /-- MSG, the message memory (R37). -/
  msg : List (Nat × Nat)
  /-- XLEN, HB_MAX, CPW, PIX_BYTES and MSG_DEPTH: the parameters of the block; nothing writes them (R6). Logs 5, 6. -/
  params : Params
  /-- The model's own: the events still to come from outside, oldest first (R71). Log 1. -/
  script : List Event
  /-- The model's own: what the latest bus read returned (R71). Log 2. -/
  readData : Option Nat
  /-- The model's own: how many operations a reset has abandoned; makes the free values of R152 fresh. Log 11. -/
  draws : Nat
  deriving DecidableEq, Repr

/-- The state after power-up and reset of a block with the given parameters: every register as R38 states it,
nothing listed in PIX and MSG. k and the model's own fields: DESIGN CHOICE, logs 1, 2, 3, 11. -/
def State.resetOn (params : Params) : State where
  status := 0
  width := 0
  height := 0
  channels := 0
  stride := 0
  bpc := 0
  hdrbits := 32
  msglen := 0
  bitidx := 0
  locCh := 0
  locCol := 0
  locRow := 0
  k := 0
  pix := []
  msg := []
  params := params
  script := []
  readData := none
  draws := 0

/-- The machine right after reset (R38, R151), with the spec's defaults and the platform's own memory sizes. -/
def State.reset : State :=
  State.resetOn Config.params

/-- The outcome of a part of a step that answers an `α`. -/
abbrev Result (α : Type) := Host.Outcome α Fault Refusal

end Sys2Proof.Machine
end

