-- ==== Sys2Proof/Machine/Flags.lean ====
section
/-! DEFINITION. STATUS.ERR, the block's only status flag (R23), and the error kinds (R131). -/

namespace Sys2Proof.Machine

/-- The error kinds (R131). UnsupportedCharacter is no error (R140). -/
inductive ErrorKind where
  | invalidMessage | messageTooLarge | imageTooSmall | truncatedPayload | badConfig | badCommand
  deriving DecidableEq, Repr

/-- The value of the three-bit field ERR for an error (R131). -/
def ErrorKind.code : ErrorKind → BitVec 3
  | .invalidMessage => 1
  | .messageTooLarge => 2
  | .imageTooSmall => 3
  | .truncatedPayload => 4
  | .badConfig => 5
  | .badCommand => 6

/-- ERR = OK (R131). -/
def okCode : BitVec 3 := 0

/-- The value STATUS holds for an ERR value: bits [31:3] zero, bits [2:0] ERR (R23, R136). -/
def statusWord (err : BitVec 3) : Nat :=
  err.toNat

end Sys2Proof.Machine
end

