-- ==== Sys2Proof/Machine/Ops.lean ====
section
/-! DEFINITION. The named operations over the state: sequencing, the two memories, how a command ends (success and
`raise`), and the effect of a reset on the registers. -/

namespace Sys2Proof.Machine

/-! Sequencing -/

/-- First `o`, then `f` on what it answers; a fault or refusal of `o` ends the whole. -/
def andThen {α β : Type} (o : Result α) (f : α → Result β) : Result β :=
  match o with
  | .next a => f a
  | .fault r => .fault r
  | .refused r => .refused r

/-- `f` of what `o` answers; `d` where `o` stops. -/
def ifNext {α β : Type} (o : Result α) (d : β) (f : α → β) : β :=
  match o with
  | .next a => f a
  | .fault _ => d
  | .refused _ => d

/-! A memory as a list of (address, content) with strictly rising addresses -/

/-- The content at an address; `none` when nothing has written it (R38, R41, R43). -/
def Memory.read {β : Type} : List (Nat × β) → Nat → Option β
  | [], _ => none
  | (b, v) :: m, a => if a < b then none else if a = b then some v else Memory.read m a

/-- The memory with `v` at address `a`, every other address as before, the addresses still rising. -/
def Memory.write {β : Type} : List (Nat × β) → Nat → β → List (Nat × β)
  | [], a, v => [(a, v)]
  | (b, w) :: m, a, v =>
    if a < b then (a, v) :: (b, w) :: m
    else if a = b then (a, v) :: m
    else (b, w) :: Memory.write m a v

/-- The canonical form: addresses strictly rising. -/
def Memory.wf {β : Type} : List (Nat × β) → Bool
  | [] => true
  | [_] => true
  | (a, _) :: (b, w) :: m => decide (a < b) && Memory.wf ((b, w) :: m)

/-- Every listed address and its content pass the test. -/
def Memory.every {β : Type} (p : Nat → β → Bool) (m : List (Nat × β)) : Bool :=
  m.all fun c => p c.1 c.2

/-- `old` with those contents of `new` whose address `pick` chooses. -/
def Memory.mix {β : Type} (pick : Nat → Bool) (old : List (Nat × β)) : List (Nat × β) → List (Nat × β)
  | [] => old
  | (a, v) :: new => Memory.mix pick (if pick a then Memory.write old a v else old) new

/-! What the host may write (R10) -/

/-- `o` for a value of at most `width` bits; a wider one is refused: no transaction carries it (R10, R21, R37). Log 6. -/
def whenFits {α : Type} (width v : Nat) (o : Result α) : Result α :=
  if v < 2 ^ width then o else .refused (.valueTooWide v)

/-! MemRead and MemWrite (R10, R41, R43) -/

/-- MemRead(PIX, off, 1) (R41). -/
def readPix (s : State) (off : Nat) : Result Byte :=
  if off < s.params.pixBytes then
    match Memory.read s.pix off with
    | some v => .next v
    | none => .fault (.pixUnwritten off)
  else .fault (.pixOutside off)

/-- MemWrite(PIX, off, 1, v) (R41). -/
def writePix (off : Nat) (v : Byte) (s : State) : Result State :=
  if off < s.params.pixBytes then .next { s with pix := Memory.write s.pix off v }
  else .fault (.pixOutside off)

/-- MemRead(MSG, i, 1) (R43). -/
def readMsg (s : State) (i : Nat) : Result Nat :=
  if i < s.params.msgDepth then
    match Memory.read s.msg i with
    | some v => .next v
    | none => .fault (.msgUnwritten i)
  else .fault (.msgOutside i)

/-- MemWrite(MSG, i, 1, v) (R43). -/
def writeMsg (i v : Nat) (s : State) : Result State :=
  if i < s.params.msgDepth then .next { s with msg := Memory.write s.msg i v }
  else .fault (.msgOutside i)

/-! How a command ends (R136, R137, R143) -/

/-- The end of a command: STATUS.ERR is overwritten, bits [31:3] become 0, the CMD write completes and the engine is
idle (R62, R136). -/
def complete (err : BitVec 3) (s : State) : State :=
  { s with status := statusWord err }

/-- `raise E()`, the block's trap entry: the operation ends here, ERR is the code of E, and everything else is as
before the command, whose state `s` is (R136, R137). Control goes nowhere: there is no handler. -/
def raise (e : ErrorKind) (s : State) : Result State :=
  .next (complete e.code s)

/-- The successful end: `x[STATUS] <- 0` (R136). There is no return-from-trap operation beside it (R143). -/
def succeed (s : State) : Result State :=
  .next (complete okCode s)

/-! Reset (R150, R151) -/

/-- What a reset does to the state: every register takes the value of R38; PIX and MSG are not touched (R151).
The counter k has no value after a reset; DESIGN CHOICE 0, log 3. -/
def resetRegisters (s : State) : State :=
  { State.resetOn s.params with
    pix := s.pix, msg := s.msg, script := s.script, readData := s.readData, draws := s.draws }

end Sys2Proof.Machine
end

