-- ==== Sys2Proof/Machine/Operands.lean ====
section
/-! DEFINITION. Operands: the register file (R21), the legality of a configuration (R33), the bit-address
calculation (R80), the pixel layout (R42), and the one-bit accesses to PIX with their running bit counter (R30,
R44, R45). No operation but `succeed`, LOCATE's results and DECODE's MSGLEN writes a register, so a register read
while an operation runs is the value it had when the command started (R39, R54). -/

namespace Sys2Proof.Machine

/-! The register file (R21) -/

/-- The byte offset of a register in REG (R21). -/
def regOffset : Reg → Nat
  | .cmd => 0x00
  | .status => 0x04
  | .width => 0x08
  | .height => 0x0C
  | .channels => 0x10
  | .stride => 0x14
  | .bpc => 0x18
  | .hdrbits => 0x1C
  | .msglen => 0x20
  | .bitidx => 0x24
  | .locCh => 0x28
  | .locCol => 0x2C
  | .locRow => 0x30

/-- A REG access is defined only as a whole 32-bit access at a multiple of 4 (R40, R47). For an XLEN other than 32 the
spec does not say how a register is accessed; the model keeps the offsets and one whole access: DESIGN CHOICE, log 16. -/
def regAccessDefined (offset : Nat) (size : AccessSize) : Bool :=
  size == .word && offset % 4 == 0

/-- The register at a byte offset; `none` for a reserved offset (R21). -/
def regAt (offset : Nat) : Option Reg :=
  match offset with
  | 0x00 => some .cmd
  | 0x04 => some .status
  | 0x08 => some .width
  | 0x0C => some .height
  | 0x10 => some .channels
  | 0x14 => some .stride
  | 0x18 => some .bpc
  | 0x1C => some .hdrbits
  | 0x20 => some .msglen
  | 0x24 => some .bitidx
  | 0x28 => some .locCh
  | 0x2C => some .locCol
  | 0x30 => some .locRow
  | _ => none

/-- The value a host read of a register returns; CMD stores nothing and reads 0 (R22). -/
def readReg (s : State) : Reg → Nat
  | .cmd => 0
  | .status => s.status
  | .width => s.width
  | .height => s.height
  | .channels => s.channels
  | .stride => s.stride
  | .bpc => s.bpc
  | .hdrbits => s.hdrbits
  | .msglen => s.msglen
  | .bitidx => s.bitidx
  | .locCh => s.locCh
  | .locCol => s.locCol
  | .locRow => s.locRow

/-- A host write of a register other than CMD: a RW register stores the value as given, a RO register ignores the
write (R21). CMD stores nothing (R22); what a write to it starts is `command` of Machine/Bus.lean. -/
def writeReg (r : Reg) (v : Nat) (s : State) : State :=
  match r with
  | .cmd => s
  | .status => s
  | .width => { s with width := v }
  | .height => { s with height := v }
  | .channels => { s with channels := v }
  | .stride => { s with stride := v }
  | .bpc => { s with bpc := v }
  | .hdrbits => { s with hdrbits := v }
  | .msglen => { s with msglen := v }
  | .bitidx => { s with bitidx := v }
  | .locCh => s
  | .locCol => s
  | .locRow => s

/-! Configuration legality (R33) -/

/-- cfg_locate_ok (R33). -/
def cfgLocateOk (s : State) : Bool :=
  decide (1 ≤ s.width) && decide (1 ≤ s.channels)

/-- cfg_codec_ok (R33). -/
def cfgCodecOk (s : State) : Bool :=
  decide (1 ≤ s.width) && decide (1 ≤ s.channels) && decide (s.channels ≤ s.stride)
    && (decide (s.bpc = 7) || decide (s.bpc = 8))
    && decide (1 ≤ s.hdrbits) && decide (s.hdrbits ≤ s.params.hbMax)

/-! Sizes, all exact naturals (R8) -/

/-- cap = width * height * channel_count, with the configured channel count (R11). -/
def capacity (s : State) : Nat :=
  s.width * s.height * s.channels

/-- need = header_bits + len(message) * bits_per_char (R14, R93). -/
def requiredBits (s : State) : Nat :=
  s.hdrbits + s.msglen * s.bpc

/-! The bit-address calculation -/

/-- The triple `locate` returns, in the order of its contract (R80, C1). -/
structure Location where
  channel : Nat
  col : Nat
  row : Nat
  deriving DecidableEq, Repr

/-- locate(bit_index, width, channel_count): never checks a bound (R80, R82). -/
def locate (bitIndex width channelCount : Nat) : Location where
  channel := bitIndex % channelCount
  col := (bitIndex / channelCount) % width
  row := bitIndex / (width * channelCount)

/-- pixoff(row, col, ch) = (row * x[WIDTH] + col) * x[STRIDE] + ch (R42). -/
def pixoff (s : State) (row col ch : Nat) : Nat :=
  (row * s.width + col) * s.stride + ch

/-- The PIX offset of the byte that carries bit index `k`: the block's one addressing mode (R69, R87). -/
def bitOffset (s : State) (k : Nat) : Nat :=
  let l := locate k s.width s.channels
  pixoff s l.row l.col l.channel

/-! One-bit accesses (R44, R45) and the running bit counter (R30) -/

/-- A bit as the byte 0 or 1. -/
def bitByte (b : Bool) : Byte :=
  if b then 1 else 0

/-- The overwrite rule: new = (old & 0xFE) | b (R44, C3, C4). -/
def overwriteLsb (old : Byte) (b : Bool) : Byte :=
  (old &&& 0xFE#8) ||| bitByte b

/-- k <- 0, at the start of a codec operation (R30). -/
def startCounter (s : State) : State :=
  { s with k := 0 }

/-- k <- k + 1 (R10, R30). -/
def advance (s : State) : State :=
  { s with k := s.k + 1 }

/-- put(k, b); k <- k + 1: a read and a write of the byte of bit index k (R44). -/
def putBit (b : Bool) (s : State) : Result State :=
  andThen (readPix s (bitOffset s s.k)) fun old =>
    andThen (writePix (bitOffset s s.k) (overwriteLsb old b) s) fun s' => .next (advance s')

/-- get(k); k <- k + 1: bit 0 of the byte of bit index k (R45). -/
def getBit (s : State) : Result (Bool × State) :=
  andThen (readPix s (bitOffset s s.k)) fun v => .next (v.getLsbD 0, advance s)

/-- Emit the low `n` bits of `v`, most significant bit first, one `put` each (R67, R68, R94, R95). -/
def putBits (v : Nat) : Nat → State → Result State
  | 0, s => .next s
  | n + 1, s => andThen (putBit (v.testBit n) s) fun s' => putBits v n s'

/-- Read `n` bits and accumulate them by shifting left and OR-ing (R70, R113, R115). -/
def getBits : Nat → Nat → State → Result (Nat × State)
  | 0, acc, s => .next (acc, s)
  | n + 1, acc, s => andThen (getBit s) fun p => getBits n ((acc <<< 1) ||| p.1.toNat) p.2

end Sys2Proof.Machine
end

