-- ==== Sys2Proof/Machine/Decoder.lean ====
section
/-! DEFINITION. The DECODE operation (R110). -/

namespace Sys2Proof.Machine

/-- One character: rebuild it from BPC bits and write it, zero-extended, to element `i` of MSG (R51, R115). No value of
a character is an error (R117, R140). -/
def getChar (i : Nat) (s : State) : Result State :=
  andThen (getBits s.bpc 0 s) fun p => writeMsg i p.1 p.2

/-- The payload: `n` characters, the first into element `i` (R115). -/
def getChars : Nat → Nat → State → Result State
  | 0, _, s => .next s
  | n + 1, i, s => andThen (getChar i s) fun s' => getChars n (i + 1) s'

/-- The payload-space test, exact: HB + len * B > cap (R114). -/
def payloadTruncated (s : State) (len : Nat) : Bool :=
  decide (capacity s < s.hdrbits + len * s.bpc)

/-- The end of a successful DECODE: MSGLEN <- len, STATUS <- 0 (R110, R116). -/
def finishDecode (len : Nat) (s : State) : Result State :=
  succeed { s with msglen := len }

/-! What a reset in the middle of DECODE can find written (R152) -/

/-- `n` characters, the first for element `i`, each written where the bytes of its bits exist and hold values and the
element exists; nothing is written where that is not so. -/
def getReachable : Nat → Nat → State → State
  | 0, _, s => s
  | n + 1, i, s =>
    ifNext (getChar i s) (getReachable n (i + 1) { s with k := s.k + s.bpc }) fun s' => getReachable n (i + 1) s'

/-- The state in which every target of DECODE holds its decoded value (R152): MSG[0 .. len - 1] once the header has been
read and both capacity tests have passed, and none before that (R110, R114). Log 12. -/
def decodeTargets (s : State) : State :=
  if cfgCodecOk s then
    if capacity s < s.hdrbits then s
    else
      ifNext (getBits s.hdrbits 0 (startCounter s)) s fun p =>
        if payloadTruncated s p.1 then s else getReachable p.1 0 p.2
  else s

/-! The operation -/

/-- DECODE: BadConfig, then ImageTooSmall, then the header, then TruncatedPayload before any payload read or MSG
write (R110, R114, R142), then the payload. -/
def execDecode (s : State) : Result State :=
  if cfgCodecOk s then
    if capacity s < s.hdrbits then raise .imageTooSmall s
    else
      andThen (getBits s.hdrbits 0 (startCounter s)) fun p =>
        if payloadTruncated s p.1 then raise .truncatedPayload s
        else andThen (getChars p.1 0 p.2) fun s' => finishDecode p.1 s'
  else raise .badConfig s

end Sys2Proof.Machine
end

