-- ==== Sys2Proof/Machine/Encoder.lean ====
section
/-! DEFINITION. The ENCODE operation (R90). -/

namespace Sys2Proof.Machine

/-- Validation 1, the character test over `n` elements from index `i`, ascending, stopping at the first invalid one:
is every codepoint below 2^BPC (R51, R92)? -/
def messageValid (s : State) : Nat → Nat → Result Bool
  | 0, _ => .next true
  | n + 1, i =>
    andThen (readMsg s i) fun cp =>
      if cp < 2 ^ s.bpc then messageValid s n (i + 1) else .next false

/-- Validation 2, the size test, exact: need > cap or len > 2^header_bits - 1 (R93). -/
def messageTooLarge (s : State) : Bool :=
  decide (capacity s < requiredBits s) || decide (2 ^ s.hdrbits - 1 < s.msglen)

/-- The payload: for each of `n` characters from index `i`, read it once more and emit its BPC bits (R51, R95). -/
def putChars : Nat → Nat → State → Result State
  | 0, _, s => .next s
  | n + 1, i, s =>
    andThen (readMsg s i) fun cp =>
      andThen (putBits cp s.bpc s) fun s' => putChars n (i + 1) s'

/-- The emission: k <- 0, the header, the payload on the same counter, STATUS <- 0 (R90, R94 to R96). -/
def emitStream (s : State) : Result State :=
  andThen (putBits s.msglen s.hdrbits (startCounter s)) fun s1 =>
    andThen (putChars s.msglen 0 s1) fun s2 => succeed s2

/-! The stream (R66 to R68), and what a reset in the middle of ENCODE can find written (R152) -/

/-- The number in element i of MSG; 0 stands for an element nothing has written, about which nothing is claimed. -/
def codepoint (s : State) (i : Nat) : Nat :=
  match Memory.read s.msg i with
  | some v => v
  | none => 0

/-- Bit k of the stream that encodes the message of `s`: the header, then the characters, each most significant bit
first (R66, R67, R68). -/
def streamBit (s : State) (k : Nat) : Bool :=
  if k < s.hdrbits then s.msglen.testBit (s.hdrbits - 1 - k)
  else (codepoint s ((k - s.hdrbits) / s.bpc)).testBit (s.bpc - 1 - (k - s.hdrbits) % s.bpc)

/-- `n` bits of the stream from the counter on, each put where its byte exists and holds a value; nothing is written
where it does not. -/
def putReachable : Nat → State → State
  | 0, s => s
  | n + 1, s => ifNext (putBit (streamBit s s.k) s) (putReachable n (advance s)) fun s' => putReachable n s'

/-- The state in which every target of ENCODE holds its new content (R152): the `need` targeted LSBs once the legality
test and both validations have passed, and none before that (R90, R98, R159). Log 12. -/
def encodeTargets (s : State) : State :=
  if cfgCodecOk s then
    ifNext (messageValid s s.msglen 0) s fun valid =>
      if valid then if messageTooLarge s then s else putReachable (requiredBits s) (startCounter s) else s
  else s

/-! The operation -/

/-- ENCODE: BadConfig, then InvalidMessage, then MessageTooLarge, all before any `put` (R90, R98, R142); then the
stream is written. -/
def execEncode (s : State) : Result State :=
  if cfgCodecOk s then
    andThen (messageValid s s.msglen 0) fun valid =>
      if valid then
        if messageTooLarge s then raise .messageTooLarge s else emitStream s
      else raise .invalidMessage s
  else raise .badConfig s

end Sys2Proof.Machine
end

