-- ==== Sys2Proof/Machine/Locator.lean ====
section
/-! DEFINITION. The LOCATE operation (R81). -/

namespace Sys2Proof.Machine

/-- LOCATE: BadConfig when WIDTH = 0 or CHANNELS = 0, else the triple of BITIDX into LOC_CH, LOC_COL, LOC_ROW
(R81). It touches neither memory nor the counter k (R30, R48), and never compares BITIDX with the capacity (R82). -/
def execLocate (s : State) : Result State :=
  if cfgLocateOk s then
    let l := locate s.bitidx s.width s.channels
    succeed { s with locCh := l.channel, locCol := l.col, locRow := l.row }
  else raise .badConfig s

end Sys2Proof.Machine
end

