-- ==== Sys2Proof/Machine/Bus.lean ====
section
/-! DEFINITION. What reaches the block from outside: the host's transactions (R21, R40, R71), the CMD write that runs
an operation (R22, R62), other agents' accesses during an operation (R52), reset (R150 to R152), and the machine's
step, which takes the next event of the script. -/

namespace Sys2Proof.Machine

/-- A write of `v` to CMD: decode; an illegal value raises BadCommand (R64, R139), a legal one runs its operation to
its end (R62). -/
def command (v : Nat) (s : State) : Result State :=
  match decodeValue v with
  | .ok i => exec i s
  | .error _ => raise .badCommand s

/-- A host write to REG (R21): to CMD, to another register, or to a reserved offset, where it is ignored. -/
def regWrite (offset v : Nat) (s : State) : Result State :=
  match regAt offset with
  | some .cmd => command v s
  | some r => .next (writeReg r v s)
  | none => .next s

/-- The value of a host read from REG; a reserved offset reads 0 (R21). -/
def regRead (offset : Nat) (s : State) : Nat :=
  match regAt offset with
  | some r => readReg s r
  | none => 0

/-- A bus read returned `v`: the model's own output field. -/
def returned (v : Nat) (s : State) : State :=
  { s with readData := some v }

/-- One transaction (R71). A partial or unaligned access to REG is refused (R47, U11), and so is a value that does not
fit the register or the element (R10, R21, R37). That one access carries a whole register also where XLEN is not 32 is
the model's DESIGN CHOICE, log 16. -/
def transact (t : Transaction) (s : State) : Result State :=
  match t with
  | .regWrite offset size v =>
    if regAccessDefined offset size then whenFits s.params.xlen v (regWrite offset v s)
    else .refused (.partialRegAccess offset)
  | .regRead offset size =>
    if regAccessDefined offset size then .next (returned (regRead offset s) s) else .refused (.partialRegAccess offset)
  | .pixWrite offset v => writePix offset v s
  | .pixRead offset => andThen (readPix s offset) fun v => .next (returned v.toNat s)
  | .msgWrite i v => whenFits s.params.cpw v (writeMsg i v s)
  | .msgRead i => andThen (readMsg s i) fun v => .next (returned v s)

/-- The transactions in order, each completing before the next starts (R71). -/
def transactAll : List Transaction → State → Result State
  | [], s => .next s
  | t :: ts, s => andThen (transact t s) fun s' => transactAll ts s'

/-! Other agents while an operation runs (R52, R146, R154) -/

/-- The buffer's region of PIX is offsets 0 to WIDTH * HEIGHT * STRIDE - 1 (R52, R153); its size. -/
def regionBytes (s : State) : Nat :=
  s.width * s.height * s.stride

/-- An access to REG. While any CMD write is being performed no register can be accessed (R62, U11). -/
def touchesRegister (t : Transaction) : Bool :=
  match t with
  | .regWrite _ _ _ => true
  | .regRead _ _ => true
  | .pixWrite _ _ => false
  | .pixRead _ => false
  | .msgWrite _ _ => false
  | .msgRead _ => false

/-- Does another agent's access, made while operation `i` runs, break the exclusive access rule? PIX: ENCODE excludes any
access to the region, DECODE a write to it (R52 (a), (b), R154). MSG: every operation excludes a write, "MSG is not
modified under a running operation" (R154, U8), and DECODE a read too (R52 (c)). REG: any access. That R154 and U8 go
before the narrower R52 (c), and R52 before the wider U11 for the other accesses to a memory: DESIGN CHOICE, log 17. -/
def breaksExclusion (s : State) (i : Instr) (t : Transaction) : Bool :=
  match t with
  | .regWrite _ _ _ => true
  | .regRead _ _ => true
  | .pixWrite offset _ => decide (i = .encode ∨ i = .decode) && decide (offset < regionBytes s)
  | .pixRead offset => decide (i = .encode) && decide (offset < regionBytes s)
  | .msgWrite _ _ => true
  | .msgRead _ => decide (i = .decode)

/-- The first of the other agents' accesses that breaks the rule. When the value is illegal no operation starts (R139),
and only a register access can (R62). -/
def firstBreach (s : State) (v : Nat) (others : List Transaction) : Option Transaction :=
  match decodeValue v with
  | .ok i => others.find? (breaksExclusion s i)
  | .error _ => others.find? touchesRegister

/-- A CMD write of `v` while whose operation other agents make `others`. A breach is refused (U8, D25); without one
the operation behaves as if it ran alone and instantaneously (R52 (d)), and the others' accesses, none of which
meets the operation's, are performed after it. Log 10. -/
def sharedCommand (v : Nat) (others : List Transaction) (s : State) : Result State :=
  match firstBreach s v others with
  | some t => .refused (.sharedAccess t)
  | none => andThen (whenFits s.params.xlen v (command v s)) fun s' => transactAll others s'

/-! Reset (R150 to R152) -/

/-- The state in which every memory target of operation `i` holds its new content (R152). LOCATE has none (R48). -/
def operationTargets (i : Instr) (s : State) : State :=
  match i with
  | .locate => s
  | .encode => encodeTargets s
  | .decode => decodeTargets s

/-- The same for a CMD write of `v`; an illegal value starts no operation (R139). -/
def commandTargets (v : Nat) (s : State) : State :=
  match decodeValue v with
  | .ok i => operationTargets i s
  | .error _ => s

/-- A reset abandons the operation that the CMD write of `v` started (R152): the registers take their reset values;
each targeted LSB and each targeted element of MSG holds its old or its new value, which of them is the free value
`Config.landed`; everything else in the memories is unchanged. There is a next state whatever access the operation would
have met later. Logs 11, 12. -/
def abandon (v : Nat) (s : State) : Result State :=
  whenFits s.params.xlen v (.next (resetRegisters { s with
    pix := Memory.mix (Config.landed s.draws) s.pix (commandTargets v s).pix
    msg := Memory.mix (Config.landed s.draws) s.msg (commandTargets v s).msg
    draws := s.draws + 1 }))

/-! The step -/

/-- The effect of one event. -/
def perform (e : Event) (s : State) : Result State :=
  match e with
  | .access t => transact t s
  | .shared v others => sharedCommand v others s
  | .reset => .next (resetRegisters s)
  | .resetDuring v => abandon v s

/-- Take the next event of the script and perform it; with none left the engine is idle and changes nothing (R20). -/
def takeEvent (s : State) : Result State :=
  match s.script with
  | [] => .next s
  | e :: rest => perform e { s with script := rest }

/-- The state whose next event is the host's CMD write of the word that the opcode table numbers `w`. -/
def placeCommand (s : State) (nbits w : Nat) : State :=
  { s with script := .access (.regWrite (regOffset .cmd) .word (w % 2 ^ nbits)) :: s.script }

end Sys2Proof.Machine
end

