-- ==== Sys2Proof/Machine/Step.lean ====
section
/-! DEFINITION. One step of the machine, and how the host places an instruction to be run next. -/

namespace Sys2Proof.Machine

/-- One step: the next event of the script. -/
def step (s : State) : Host.Outcome State Fault Refusal :=
  takeEvent s

/-- The state whose next event is the CMD write of the given instruction. -/
def State.withFetchWord (s : State) (nbits w : Nat) : State :=
  placeCommand s nbits w

end Sys2Proof.Machine
end

