-- ==== Sys2Proof/Machine/Script.lean ====
section
/-! DEFINITION. The host script of R71 and R72: each line and each pseudo-instruction as events, and the encoding of
a transaction. A notation of the spec for its test programs, not an interface of the block (D21). -/

namespace Sys2Proof.Machine

/-- `WR <reg>, <value>` (R71). -/
def Script.wr (r : Reg) (v : Nat) : Event :=
  .access (.regWrite (regOffset r) .word v)

/-- `RD <reg>` (R71). -/
def Script.rd (r : Reg) : Event :=
  .access (.regRead (regOffset r) .word)

/-- `PIXFILL <off>, <n>, <byte>` (R72). -/
def Script.pixFill (off : Nat) : Nat → Byte → List Event
  | 0, _ => []
  | n + 1, b => .access (.pixWrite off b) :: Script.pixFill (off + 1) n b

/-- `PIXSET <off>, <b0> … ` (R72). -/
def Script.pixSet (off : Nat) : List Byte → List Event
  | [] => []
  | b :: bs => .access (.pixWrite off b) :: Script.pixSet (off + 1) bs

/-- The element writes of `MSGSTR`, from index `i` (R72). -/
def Script.msgWrites (i : Nat) : List Char → List Event
  | [] => []
  | c :: cs => .access (.msgWrite i c.toNat) :: Script.msgWrites (i + 1) cs

/-- `MSGSTR "<text>"`: the codepoints, then MSGLEN (R72). -/
def Script.msgStr (text : String) : List Event :=
  Script.msgWrites 0 text.toList ++ [Script.wr .msglen text.toList.length]

/-- `CONFIG w, h, c, s, b, hb` (R72). -/
def Script.config (w h c s b hb : Nat) : List Event :=
  [Script.wr .width w, Script.wr .height h, Script.wr .channels c, Script.wr .stride s, Script.wr .bpc b,
    Script.wr .hdrbits hb]

/-- `LOCATE` = `WR CMD, 1` (R72). -/
def Script.locate : Event := Script.wr .cmd 1

/-- `ENCODE` = `WR CMD, 2` (R72). -/
def Script.encode : Event := Script.wr .cmd 2

/-- `DECODE` = `WR CMD, 3` (R72). -/
def Script.decode : Event := Script.wr .cmd 3

/-- The three address spaces (R40). -/
inductive Space where
  | reg | pix | msg
  deriving DecidableEq, Repr

/-- The encoding of a transaction: (space, is it a write, address, data; data absent on a read) (R71). -/
def transactionTuple : Transaction → Space × Bool × Nat × Option Nat
  | .regWrite offset _ v => (.reg, true, offset, some v)
  | .regRead offset _ => (.reg, false, offset, none)
  | .pixWrite offset v => (.pix, true, offset, some v.toNat)
  | .pixRead offset => (.pix, false, offset, none)
  | .msgWrite i v => (.msg, true, i, some v)
  | .msgRead i => (.msg, false, i, none)

end Sys2Proof.Machine
end

