-- ==== Sys2Proof/Safety.lean ====
section
/-! DEFINITION. What claims about the machine are stated in: the invariant of its state, what a host must prepare
before a command (R153), and the bitstream a buffer carries (R69, R70), beside the machine. -/

namespace Sys2Proof.Machine

/-! The invariant every step keeps -/

/-- A legal state: legal parameters; every register below 2^XLEN (R10, R21); ERR is 0 to 6 and STATUS bits [31:3] are 0
(R23); k fits XLEN + 4 bits (R8, R30); both memories are in canonical form, list no address outside the implemented
window (R41, R43), and every element of MSG is below 2^CPW (R37). -/
structure State.Inv (s : State) : Prop where
  params : s.params.Legal
  registers : ∀ r : Reg, readReg s r < 2 ^ s.params.xlen
  status : s.status ≤ 6
  counter : s.k < 2 ^ (s.params.xlen + 4)
  pixForm : Memory.wf s.pix = true
  pixUnits : Memory.every (fun a _ => decide (a < s.params.pixBytes)) s.pix = true
  msgForm : Memory.wf s.msg = true
  msgUnits : Memory.every (fun i v => decide (i < s.params.msgDepth) && decide (v < 2 ^ s.params.cpw)) s.msg = true

/-! What the host must have prepared (R153) -/

/-- The bytes of bit indices 0 to n - 1 exist and have been given a value (R41). -/
abbrev BitsReady (s : State) (n : Nat) : Prop :=
  ∀ k, k < n → bitOffset s k < s.params.pixBytes ∧ (Memory.read s.pix (bitOffset s k)).isSome = true

/-- The whole buffer has been loaded and fits (R153 (1)). -/
abbrev BufferReady (s : State) : Prop :=
  regionBytes s ≤ s.params.pixBytes ∧ ∀ off, off < regionBytes s → (Memory.read s.pix off).isSome = true

/-- Elements 0 to n - 1 of MSG exist and have been given a value (R43, R153 (3)). -/
abbrev MessageReady (s : State) (n : Nat) : Prop :=
  ∀ i, i < n → i < s.params.msgDepth ∧ (Memory.read s.msg i).isSome = true

/-- Characters 0 to n - 1 are representable in bits_per_char bits (R92). -/
abbrev MessageRepresentable (s : State) (n : Nat) : Prop :=
  ∀ i, i < n → codepoint s i < 2 ^ s.bpc

/-- The message fits the buffer and the header (R93). -/
abbrev MessageFits (s : State) : Prop :=
  requiredBits s ≤ capacity s ∧ s.msglen ≤ 2 ^ s.hdrbits - 1

/-! The bitstream (R66 to R70) -/

/-- Bit k of the stream a buffer carries: the LSB of the byte of bit index k (R69); false stands for a byte nothing
has written, about which nothing is claimed. -/
def carriedBit (s : State) (k : Nat) : Bool :=
  match Memory.read s.pix (bitOffset s k) with
  | some v => v.getLsbD 0
  | none => false

/-- The n-bit field that starts at stream index `start`, first bit most significant (R70). -/
def carriedField (s : State) (start : Nat) : Nat → Nat
  | 0 => 0
  | n + 1 => 2 * carriedField s start n + (carriedBit s (start + n)).toNat

/-- The message length the buffer's header spells (R113). -/
def carriedLength (s : State) : Nat :=
  carriedField s 0 s.hdrbits

/-- Character i the buffer's payload spells (R115). -/
def carriedChar (s : State) (i : Nat) : Nat :=
  carriedField s (s.hdrbits + i * s.bpc) s.bpc

/-- Two states of blocks with the same parameters and the same configuration of the codec (R100, R155). -/
structure SameCodecConfig (s t : State) : Prop where
  width : t.width = s.width
  height : t.height = s.height
  channels : t.channels = s.channels
  stride : t.stride = s.stride
  bpc : t.bpc = s.bpc
  hdrbits : t.hdrbits = s.hdrbits
  params : t.params = s.params

/-- The configuration registers hold an illegal value for the operation (R134). -/
def IllegalConfig (i : Instr) (s : State) : Prop :=
  match i with
  | .locate => s.width = 0 ∨ s.channels = 0
  | .encode | .decode =>
    s.width = 0 ∨ s.channels = 0 ∨ s.stride < s.channels ∨ (s.bpc ≠ 7 ∧ s.bpc ≠ 8)
      ∨ s.hdrbits = 0 ∨ s.params.hbMax < s.hdrbits

end Sys2Proof.Machine
end

