-- ==== Sys2Proof/Certificates/Slice0/Obligations.lean ====
section
/-! DEFINITION. The statements for the provers. Each docstring says which rule of spec/ it formalises. -/

open Sys2Proof Sys2Proof.Machine

/-! Decoding -/

/-- The command words of R61's table, written out bit by bit by R60 (ZERO = bits [31:2], OP = bits [1:0]), and words
of 95_test_vectors.md 2.5 that are no commands. The last clause, that a value of more than 32 bits is no command either,
is the model's reading: log 14 (DEDUCED from R65, with R139). -/
def Obligations.WrittenWordsDecode : Prop :=
  decodeWord 0b00000000000000000000000000000001#32 = .ok .locate ∧
  decodeWord 0b00000000000000000000000000000010#32 = .ok .encode ∧
  decodeWord 0b00000000000000000000000000000011#32 = .ok .decode ∧
  decodeWord 0b00000000000000000000000000000000#32 = .error .noOperation ∧
  decodeWord 0b00000000000000000000000000000100#32 = .error .zeroFieldSet ∧
  decodeWord 0b00000000000000000000000000000101#32 = .error .zeroFieldSet ∧
  decodeWord 0b10000000000000000000000000000001#32 = .error .zeroFieldSet ∧
  decodeValue 3 = .ok .decode ∧ decodeValue 0x100000001 = .error .tooLong

/-- Decoding an encoded instruction gives it back (R60, R61). -/
def Obligations.EncodedInstructionDecodes : Prop :=
  ∀ i : Instr, decodeWord (encodeWord i) = .ok i

/-- The opcode map is complete (R61): the decoder matches the whole word, and only the three words are commands. The second
clause says so of every value a CMD write can carry; that one of more than 32 bits is no command rests on log 14
(DEDUCED from R65, with R139), since R61 speaks of 32-bit words only. -/
def Obligations.OnlyThreeWordsAreCommands : Prop :=
  (∀ (w : Word) (i : Instr),
    decodeWord w = .ok i ↔ (w = 1 ∧ i = .locate) ∨ (w = 2 ∧ i = .encode) ∨ (w = 3 ∧ i = .decode)) ∧
  (∀ (v : Nat) (i : Instr),
    decodeValue v = .ok i ↔ (v = 1 ∧ i = .locate) ∨ (v = 2 ∧ i = .encode) ∨ (v = 3 ∧ i = .decode))

/-- A step whose next event is a CMD write of an XLEN-bit value that decodes to `i` is `exec i`, the event taken off the
script (the script is the model's own field, log 1; one word access for every XLEN, log 16); and a word placed by `withFetchWord` is run so, where registers
have at least the two bits of OP. -/
def Obligations.StepRunsDecodedInstruction : Prop :=
  (∀ (s : State) (v : Nat) (i : Instr) (rest : List Event),
    s.script = .access (.regWrite 0x00 .word v) :: rest → v < 2 ^ s.params.xlen → decodeValue v = .ok i →
      step s = exec i { s with script := rest }) ∧
  (∀ (s : State) (i : Instr), 2 ≤ s.params.xlen → step (s.withFetchWord 32 (encodeWord i).toNat) = exec i s)

/-- Every value other than 1, 2 and 3 raises BadCommand, and nothing but STATUS changes (R64, R139). Two things are the
model's: that a value of 2^32 and above, which R64 does not speak of, is an illegal command too (log 14, DEDUCED from R65
and R139), and that for an XLEN other than 32 one word access carries the CMD write (log 16, DESIGN CHOICE). -/
def Obligations.IllegalCommandRaisesBadCommand : Prop :=
  ∀ (s : State) (v : Nat) (rest : List Event),
    s.script = .access (.regWrite 0x00 .word v) :: rest → v < 2 ^ s.params.xlen → v ≠ 1 → v ≠ 2 → v ≠ 3 →
      step s = .next { s with script := rest, status := 6 }

/-- R20: between commands the engine is idle and changes nothing. -/
def Obligations.IdleEngineChangesNothing : Prop :=
  ∀ s : State, s.script = [] → step s = .next s

/-! LOCATE -/

/-- R81, whole: the triple of BITIDX on a legal configuration, each result fitting a register of XLEN bits, BadConfig on
another, everything else unchanged. -/
def Obligations.LocateComputesTriple : Prop :=
  decodeWord 0x00000001#32 = .ok .locate ∧
  (∀ s : State, 1 ≤ s.width → 1 ≤ s.channels →
    ∃ t, exec .locate s = .next t ∧
      t.locCh = s.bitidx % s.channels ∧
      t.locCol = s.bitidx / s.channels % s.width ∧
      t.locRow = s.bitidx / (s.width * s.channels) ∧
      (∀ x, s.bitidx < 2 ^ x → s.width < 2 ^ x → s.channels < 2 ^ x →
        t.locCh < 2 ^ x ∧ t.locCol < 2 ^ x ∧ t.locRow < 2 ^ x) ∧
      t.status = 0 ∧
      t = { s with locCh := t.locCh, locCol := t.locCol, locRow := t.locRow, status := t.status }) ∧
  (∀ s : State, s.width = 0 ∨ s.channels = 0 → exec .locate s = .next { s with status := 5 })

/-- R83: the ranges of the results of `locate`; x stands for XLEN. -/
def Obligations.LocateResultRanges : Prop :=
  ∀ n w c : Nat, 1 ≤ w → 1 ≤ c →
    (locate n w c).channel < c ∧ (locate n w c).col < w ∧
    (locate n w c).row = n / (w * c) ∧ (locate n w c).row ≤ n ∧
    (∀ h : Nat, (locate n w c).row < h ↔ n < w * h * c) ∧
    (∀ x : Nat, n < 2 ^ x → w < 2 ^ x → c < 2 ^ x →
      (locate n w c).channel < 2 ^ x ∧ (locate n w c).col < 2 ^ x ∧ (locate n w c).row < 2 ^ x)

/-- R84: the index is recovered from the triple, and with STRIDE = CHANNELS the PIX offset of bit n is n. -/
def Obligations.LocateReconstruction : Prop :=
  (∀ n w c : Nat, 1 ≤ w → 1 ≤ c →
    n = (locate n w c).row * (w * c) + (locate n w c).col * c + (locate n w c).channel) ∧
  (∀ (s : State) (n : Nat), 1 ≤ s.width → 1 ≤ s.channels → s.stride = s.channels →
    pixoff s (locate n s.width s.channels).row (locate n s.width s.channels).col
      (locate n s.width s.channels).channel = n)

/-- R85: `locate` is a bijection from [0, w*h*c) onto the triples in range, its inverse the expression of R84, and
one-to-one on all naturals. -/
def Obligations.LocateIsBijective : Prop :=
  ∀ w c : Nat, 1 ≤ w → 1 ≤ c →
    (∀ n m : Nat, locate n w c = locate m w c → n = m) ∧
    (∀ h n : Nat, n < w * h * c →
      (locate n w c).channel < c ∧ (locate n w c).col < w ∧ (locate n w c).row < h) ∧
    (∀ h ch col row : Nat, ch < c → col < w → row < h →
      row * (w * c) + col * c + ch < w * h * c ∧
      locate (row * (w * c) + col * c + ch) w c = { channel := ch, col := col, row := row })

/-- Raster order: the next channel, else the next column, else the next row. -/
def Obligations.LocateRasterOrder : Prop :=
  ∀ n w c : Nat, 1 ≤ w → 1 ≤ c →
    locate (n + 1) w c =
      if (locate n w c).channel + 1 < c then
        { channel := (locate n w c).channel + 1, col := (locate n w c).col, row := (locate n w c).row }
      else if (locate n w c).col + 1 < w then
        { channel := 0, col := (locate n w c).col + 1, row := (locate n w c).row }
      else { channel := 0, col := 0, row := (locate n w c).row + 1 }

/-! The one-bit accesses -/

/-- `put`: the byte at pixoff(locate(k)) gets the bit in bit 0 and keeps bits 7 to 1; the counter advances; nothing
else changes. -/
def Obligations.PutStoresOneBit : Prop :=
  ∀ (s : State) (b : Bool) (l : Location) (off : Nat) (old : Byte),
    l = locate s.k s.width s.channels →
    off = (l.row * s.width + l.col) * s.stride + l.channel →
    off < s.params.pixBytes → Memory.read s.pix off = some old →
    ∃ t new, putBit b s = .next t ∧ t = { s with pix := t.pix, k := s.k + 1 } ∧
      Memory.read t.pix off = some new ∧ new.getLsbD 0 = b ∧
      (∀ j, 1 ≤ j → new.getLsbD j = old.getLsbD j) ∧
      (∀ a, a ≠ off → Memory.read t.pix a = Memory.read s.pix a)

/-- `get`: bit 0 of the byte at pixoff(locate(k)); only the counter changes. -/
def Obligations.GetReadsOneBit : Prop :=
  ∀ (s : State) (l : Location) (off : Nat) (v : Byte),
    l = locate s.k s.width s.channels →
    off = (l.row * s.width + l.col) * s.stride + l.channel →
    off < s.params.pixBytes → Memory.read s.pix off = some v →
    getBit s = .next (v.getLsbD 0, { s with k := s.k + 1 })

/-! ENCODE -/

/-- ENCODE completes on a legal configuration, a valid message that fits and readable bytes; it writes the stream, bit
k of it into bit 0 of the byte of bit index k, and nothing else (R90 to R97). -/
def Obligations.EncodeWritesStream : Prop :=
  ∀ s : State, cfgCodecOk s = true → MessageReady s s.msglen → MessageRepresentable s s.msglen →
    MessageFits s → BitsReady s (requiredBits s) →
    ∃ t, exec .encode s = .next t ∧ t = { s with pix := t.pix, k := requiredBits s, status := 0 } ∧
      (∀ k, k < requiredBits s → ∃ old new,
        Memory.read s.pix (bitOffset s k) = some old ∧ Memory.read t.pix (bitOffset s k) = some new ∧
        new.getLsbD 0 = streamBit s k ∧ ∀ j, 1 ≤ j → new.getLsbD j = old.getLsbD j) ∧
      (∀ a, (∀ k, k < requiredBits s → a ≠ bitOffset s k) → Memory.read t.pix a = Memory.read s.pix a)

/-- R97, whole: after a successful ENCODE a touched byte keeps bits 7 to 1, carries its stream bit and moved by at
most 1; every other byte is unchanged, the later used channels, the unused channels of every pixel and the bytes
beyond the buffer among them. -/
def Obligations.EncodeNonInterference : Prop :=
  ∀ s t : State, exec .encode s = .next t → t.status = 0 →
    (∀ k, k < requiredBits s → ∃ old new,
      Memory.read s.pix (bitOffset s k) = some old ∧ Memory.read t.pix (bitOffset s k) = some new ∧
      (∀ j, 1 ≤ j → new.getLsbD j = old.getLsbD j) ∧ new.getLsbD 0 = streamBit s k ∧
      (new = old ∨ new.toNat = old.toNat + 1 ∨ old.toNat = new.toNat + 1)) ∧
    (∀ a, (∀ k, k < requiredBits s → a ≠ bitOffset s k) → Memory.read t.pix a = Memory.read s.pix a) ∧
    (∀ k, requiredBits s ≤ k → Memory.read t.pix (bitOffset s k) = Memory.read s.pix (bitOffset s k)) ∧
    (∀ p c, s.channels ≤ c → c < s.stride →
      Memory.read t.pix (p * s.stride + c) = Memory.read s.pix (p * s.stride + c)) ∧
    (∀ a, s.width * s.height * s.stride ≤ a → Memory.read t.pix a = Memory.read s.pix a)

/-- R101: MSG never changes; on success STATUS is 0 and every other register is unchanged. -/
def Obligations.EncodeLeavesRegisters : Prop :=
  ∀ s t : State, exec .encode s = .next t →
    t.msg = s.msg ∧ (t.status = 0 ∨ t = { s with status := t.status }) ∧
    (t.status = 0 → t = { s with pix := t.pix, k := t.k, status := 0 })

/-- R98: a failed ENCODE leaves everything but STATUS; past the legality test and the two validations no error is raised;
once the emission has begun it cannot fail. -/
def Obligations.EncodeAllOrNothing : Prop :=
  (∀ s t : State, exec .encode s = .next t → t.status ≠ 0 → t = { s with status := t.status }) ∧
  (∀ s t : State, exec .encode s = .next t → cfgCodecOk s = true → MessageRepresentable s s.msglen → MessageFits s →
    t.status = 0) ∧
  (∀ s t : State, emitStream s = .next t → t.status = 0)

/-- R132: InvalidMessage is raised by ENCODE at the first unrepresentable character, whatever stands beyond it, and
by nothing else. -/
def Obligations.InvalidMessageExactly : Prop :=
  (∀ (s : State) (m : Nat), cfgCodecOk s = true → m < s.msglen →
    MessageReady s (m + 1) → MessageRepresentable s m → 2 ^ s.bpc ≤ codepoint s m →
    exec .encode s = .next { s with status := 1 }) ∧
  (∀ (i : Instr) (s t : State), exec i s = .next t → t.status = 1 →
    i = .encode ∧ ∃ m cp, m < s.msglen ∧ Memory.read s.msg m = some cp ∧ 2 ^ s.bpc ≤ cp)

/-- R133: MessageTooLarge is raised by ENCODE exactly when a valid message does not fit the buffer or the header. -/
def Obligations.MessageTooLargeExactly : Prop :=
  (∀ s : State, cfgCodecOk s = true → MessageReady s s.msglen → MessageRepresentable s s.msglen →
    s.width * s.height * s.channels < s.hdrbits + s.msglen * s.bpc ∨
      2 ^ s.hdrbits - 1 < s.msglen →
    exec .encode s = .next { s with status := 2 }) ∧
  (∀ (i : Instr) (s t : State), exec i s = .next t → t.status = 2 →
    i = .encode ∧
      (s.width * s.height * s.channels < s.hdrbits + s.msglen * s.bpc ∨
        2 ^ s.hdrbits - 1 < s.msglen))

/-- A second ENCODE with the same registers and message changes nothing at all (R48). -/
def Obligations.EncodeIsIdempotent : Prop :=
  ∀ s t : State, exec .encode s = .next t → t.status = 0 → exec .encode t = .next t

/-! DECODE -/

/-- DECODE completes on a legal configuration, when header and payload fit and their bytes are readable and MSG is
deep enough; it delivers the message the LSBs spell (R110 to R116). -/
def Obligations.DecodeDeliversMessage : Prop :=
  ∀ s : State, cfgCodecOk s = true →
    s.hdrbits + carriedLength s * s.bpc ≤ capacity s →
    BitsReady s (s.hdrbits + carriedLength s * s.bpc) → carriedLength s ≤ s.params.msgDepth →
    ∃ t, exec .decode s = .next t ∧
      t = { s with
        msg := t.msg, msglen := t.msglen, k := s.hdrbits + carriedLength s * s.bpc, status := 0 } ∧
      t.msglen = carriedLength s ∧
      (∀ i, i < carriedLength s → Memory.read t.msg i = some (carriedChar s i)) ∧
      (∀ i, carriedLength s ≤ i → Memory.read t.msg i = Memory.read s.msg i)

/-- R116: what a successful DECODE leaves in MSGLEN and MSG; elements at the length and above keep their values; the
counter has counted the HB + len * B bytes read. -/
def Obligations.DecodeResult : Prop :=
  ∀ s t : State, exec .decode s = .next t → t.status = 0 →
    t.msglen = carriedLength s ∧
    (∀ i, i < carriedLength s → Memory.read t.msg i = some (carriedChar s i) ∧
      ∀ j, j < s.bpc →
        (carriedChar s i).testBit (s.bpc - 1 - j) = carriedBit s (s.hdrbits + i * s.bpc + j)) ∧
    (∀ i, carriedLength s ≤ i → Memory.read t.msg i = Memory.read s.msg i) ∧
    (carriedLength s = 0 → t.msg = s.msg) ∧
    t.k = s.hdrbits + carriedLength s * s.bpc

/-- R118: a failed DECODE changes STATUS only, PIX never changes, and past the TruncatedPayload test no error is raised:
a DECODE whose configuration is legal and whose header and declared payload fit the capacity ends, if it answers, with OK. -/
def Obligations.DecodeFailureLeavesNoTrace : Prop :=
  (∀ s t : State, exec .decode s = .next t → t.status ≠ 0 → t = { s with status := t.status }) ∧
  (∀ s t : State, exec .decode s = .next t → t.pix = s.pix) ∧
  (∀ s t : State, exec .decode s = .next t → cfgCodecOk s = true →
    s.hdrbits + carriedLength s * s.bpc ≤ capacity s → t.status = 0)

/-- R135: ImageTooSmall is raised by DECODE exactly when the capacity is below HDRBITS, before any read; ENCODE then
reports MessageTooLarge. -/
def Obligations.ImageTooSmallExactly : Prop :=
  (∀ s : State, cfgCodecOk s = true → s.width * s.height * s.channels < s.hdrbits →
    exec .decode s = .next { s with status := 3 }) ∧
  (∀ (i : Instr) (s t : State), exec i s = .next t → t.status = 3 →
    i = .decode ∧ s.width * s.height * s.channels < s.hdrbits) ∧
  (∀ s : State, cfgCodecOk s = true → MessageReady s s.msglen → MessageRepresentable s s.msglen →
    s.width * s.height * s.channels < s.hdrbits →
    exec .encode s = .next { s with status := 2 })

/-- R138: TruncatedPayload is raised by DECODE, after the header has been read, exactly when the declared payload does
not fit; no payload byte is read, nothing is written. -/
def Obligations.TruncatedPayloadExactly : Prop :=
  (∀ s : State, cfgCodecOk s = true → s.hdrbits ≤ capacity s → BitsReady s s.hdrbits →
    s.width * s.height * s.channels < s.hdrbits + carriedLength s * s.bpc →
    exec .decode s = .next { s with status := 4 }) ∧
  (∀ (i : Instr) (s t : State), exec i s = .next t → t.status = 4 →
    i = .decode ∧ BitsReady s s.hdrbits ∧
      s.width * s.height * s.channels < s.hdrbits + carriedLength s * s.bpc)

/-- DECODE run again on its own result changes nothing (R119 (h)). -/
def Obligations.DecodeIsRepeatable : Prop :=
  ∀ s t : State, exec .decode s = .next t → t.status = 0 → exec .decode t = .next t

/-- DECODE depends on PIX only through bit 0 of the used channel bytes: another pixel memory with the same LSBs at the
bit indices below the capacity gives the same outcome (R26, R45). -/
def Obligations.DecodeSeesOnlyLsbs : Prop :=
  ∀ (s t : State) (pix : List Host.Cell),
    (∀ k, k < capacity s → ∀ v, Memory.read s.pix (bitOffset s k) = some v →
      ∃ v', Memory.read pix (bitOffset s k) = some v' ∧ v'.getLsbD 0 = v.getLsbD 0) →
    exec .decode s = .next t → exec .decode { s with pix := pix } = .next { t with pix := pix }

/-- DECODE under another legal WIDTH reads the same bytes: only the capacity tests differ (R155, C8). -/
def Obligations.DecodeIgnoresWidth : Prop :=
  ∀ (s t : State) (w : Nat), exec .decode s = .next t → t.status = 0 → 1 ≤ w →
    s.hdrbits + t.msglen * s.bpc ≤ w * s.height * s.channels →
    exec .decode { s with width := w } = .next { t with width := w }

/-! ENCODE and DECODE together -/

/-- R100: the round trip. -/
def Obligations.RoundTrip : Prop :=
  ∀ s t u : State, exec .encode s = .next t → t.status = 0 →
    SameCodecConfig s u → u.pix = t.pix →
    ∃ v, exec .decode u = .next v ∧ v.status = 0 ∧ v.msglen = s.msglen ∧
      ∀ i, i < s.msglen → Memory.read v.msg i = Memory.read s.msg i

/-- The other direction: encoding what DECODE delivered leaves PIX exactly as it was (R120). -/
def Obligations.ReencodeRestoresPixels : Prop :=
  ∀ s t u : State, exec .decode s = .next t → t.status = 0 →
    SameCodecConfig s u → u.pix = s.pix → u.msg = t.msg → u.msglen = t.msglen →
    ∃ v, exec .encode u = .next v ∧ v.status = 0 ∧ v.pix = s.pix

/-! All three operations -/

/-- R134: BadConfig exactly on an illegal configuration, whatever the memories hold. -/
def Obligations.BadConfigExactly : Prop :=
  (∀ (i : Instr) (s : State), IllegalConfig i s → exec i s = .next { s with status := 5 }) ∧
  (∀ (i : Instr) (s t : State), exec i s = .next t → t.status = 5 → IllegalConfig i s)

/-- R137: every error of every operation changes STATUS only. -/
def Obligations.FailureChangesOnlyStatus : Prop :=
  ∀ (i : Instr) (s t : State), exec i s = .next t → t.status ≠ 0 → t = { s with status := t.status }

/-- Which codes each operation can report (R131); 6 belongs to the CMD write and 7 to nothing. -/
def Obligations.ErrorCodesPerOperation : Prop :=
  ∀ (i : Instr) (s t : State), exec i s = .next t →
    match i with
    | .locate => t.status = 0 ∨ t.status = 5
    | .encode => t.status = 0 ∨ t.status = 1 ∨ t.status = 2 ∨ t.status = 5
    | .decode => t.status = 0 ∨ t.status = 3 ∨ t.status = 4 ∨ t.status = 5

/-- The frame of the three operations by R63's table: what each can write, everything else unchanged; the counter is
not used by LOCATE (R30). In PIX, ENCODE can change only the bytes of bit indices below need; in MSG, DECODE can change
only the elements below the length its header spells. -/
def Obligations.OperationsWriteOnlyTheirResults : Prop :=
  ∀ (i : Instr) (s t : State), exec i s = .next t →
    match i with
    | .locate => t = { s with locCh := t.locCh, locCol := t.locCol, locRow := t.locRow, status := t.status }
    | .encode => t = { s with pix := t.pix, k := t.k, status := t.status } ∧
        ∀ a, (∀ k, k < requiredBits s → a ≠ bitOffset s k) → Memory.read t.pix a = Memory.read s.pix a
    | .decode => t = { s with msg := t.msg, msglen := t.msglen, k := t.k, status := t.status } ∧
        ∀ i, carriedLength s ≤ i → Memory.read t.msg i = Memory.read s.msg i

/-- A codec operation succeeds only if every unit it accesses exists and has been given a value (R41, R43); so an
access outside a memory or to an unwritten unit gives no next state. -/
def Obligations.CodecNeedsReadyMemory : Prop :=
  (∀ s t : State, exec .encode s = .next t → t.status = 0 →
    MessageReady s s.msglen ∧ BitsReady s (requiredBits s)) ∧
  (∀ s t : State, exec .decode s = .next t → t.status = 0 →
    BitsReady s (s.hdrbits + carriedLength s * s.bpc) ∧ ∀ i, i < carriedLength s → i < s.params.msgDepth)

/-! The machine as a whole -/

/-- Every step keeps the invariant: the parameters stay legal, every register fits XLEN bits, ERR is a code, k fits
XLEN + 4 bits, both memories stay canonical and in their windows, every element of MSG fits CPW bits. -/
def Obligations.StepKeepsInvariant : Prop :=
  ∀ s t : State, s.Inv → step s = .next t → t.Inv

/-- The state after reset meets the invariant. -/
def Obligations.ResetMeetsInvariant : Prop :=
  State.reset.Inv

/-- The register values of R38 after reset; PIX and MSG hold no value (the model's reading of "unspecified": log 7); the
parameters with a default have it (R6). -/
def Obligations.ResetRegisterValues : Prop :=
  (∀ r : Reg, readReg State.reset r = if r = .hdrbits then 32 else 0) ∧
  (∀ a, Memory.read State.reset.pix a = none) ∧ (∀ a, Memory.read State.reset.msg a = none) ∧
  State.reset.params.xlen = 32 ∧ State.reset.params.hbMax = 32 ∧ State.reset.params.cpw = 32

/-- R151: a reset while the engine is idle sets every register and leaves both memories. -/
def Obligations.ResetSetsRegisters : Prop :=
  ∀ (s : State) (rest : List Event), s.script = .reset :: rest →
    ∃ t, step s = .next t ∧ (∀ r : Reg, readReg t r = if r = .hdrbits then 32 else 0) ∧
      t.pix = s.pix ∧ t.msg = s.msg ∧ t.script = rest

/-- A reset that abandons an operation: the registers take their reset values, every byte of PIX and element of MSG
holds its old content or the one the whole operation would have given it, and a byte keeps bits 7 to 1 (R152). It
holds for every value of the free value `Config.landed` (log 11). -/
def Obligations.AbandonedOperationOldOrNew : Prop :=
  ∀ (s t : State) (v : Nat) (i : Instr) (rest : List Event), s.Inv → s.script = .resetDuring v :: rest →
    v < 2 ^ s.params.xlen → decodeValue v = .ok i → exec i { s with script := rest } = .next t →
    ∃ u, step s = .next u ∧ (∀ r : Reg, readReg u r = if r = .hdrbits then 32 else 0) ∧
      (∀ a, Memory.read u.pix a = Memory.read s.pix a ∨ Memory.read u.pix a = Memory.read t.pix a) ∧
      (∀ a, Memory.read u.msg a = Memory.read s.msg a ∨ Memory.read u.msg a = Memory.read t.msg a) ∧
      (∀ a old, Memory.read s.pix a = some old →
        ∃ new, Memory.read u.pix a = some new ∧ ∀ j, 1 ≤ j → new.getLsbD j = old.getLsbD j)

/-! The host's accesses -/

/-- The register file as the host sees it (R21). A RW register stores the XLEN-bit value as given and nothing else
changes; a write to a RO register or a reserved offset is ignored; a read returns the register, CMD and reserved offsets
0. Two things are the model's choice: that for an XLEN other than 32 one word access at R21's offset carries one whole
register (log 16, DESIGN CHOICE), and, in the last clause, that the REG space has no end, so that EVERY aligned offset
above 0x30 is reserved (log 9, DESIGN CHOICE). -/
def Obligations.HostRegisterAccess : Prop :=
  ([Reg.cmd, .status, .width, .height, .channels, .stride, .bpc, .hdrbits, .msglen, .bitidx, .locCh, .locCol,
      .locRow].map regOffset
    = [0x00, 0x04, 0x08, 0x0C, 0x10, 0x14, 0x18, 0x1C, 0x20, 0x24, 0x28, 0x2C, 0x30]) ∧
  (∀ (s : State) (r : Reg) (v : Nat) (rest : List Event), v < 2 ^ s.params.xlen →
    r ∈ [Reg.width, .height, .channels, .stride, .bpc, .hdrbits, .msglen, .bitidx] →
    s.script = .access (.regWrite (regOffset r) .word v) :: rest →
    ∃ t, step s = .next t ∧ readReg t r = v ∧ (∀ r', r' ≠ r → readReg t r' = readReg s r') ∧
      t.pix = s.pix ∧ t.msg = s.msg ∧ t.k = s.k ∧ t.script = rest ∧ t.readData = s.readData) ∧
  (∀ (s : State) (r : Reg) (v : Nat) (rest : List Event), v < 2 ^ s.params.xlen →
    r ∈ [Reg.status, .locCh, .locCol, .locRow] → s.script = .access (.regWrite (regOffset r) .word v) :: rest →
    step s = .next { s with script := rest }) ∧
  (∀ (s : State) (r : Reg) (rest : List Event), s.script = .access (.regRead (regOffset r) .word) :: rest →
    step s = .next { s with script := rest, readData := some (if r = .cmd then 0 else readReg s r) }) ∧
  (∀ (s : State) (offset v : Nat) (rest : List Event), offset % 4 = 0 → 0x30 < offset →
    (s.script = .access (.regWrite offset .word v) :: rest → v < 2 ^ s.params.xlen → step s = .next { s with script := rest }) ∧
    (s.script = .access (.regRead offset .word) :: rest →
      step s = .next { s with script := rest, readData := some 0 }))

/-- A REG access that is not a whole aligned word is refused (R47, U11; for an XLEN other than 32, log 16). -/
def Obligations.PartialRegAccessRefused : Prop :=
  ∀ (s : State) (offset : Nat) (size : AccessSize) (v : Nat) (rest : List Event),
    size ≠ .word ∨ offset % 4 ≠ 0 →
    (s.script = .access (.regWrite offset size v) :: rest → step s = .refused (.partialRegAccess offset)) ∧
    (s.script = .access (.regRead offset size) :: rest → step s = .refused (.partialRegAccess offset))

/-- PIX as the host sees it: a write inside the window replaces one byte, a read returns it; outside the window or on
a byte nothing has written there is no next state (R41; the stop is a fault by logs 7 and 8). -/
def Obligations.PixelMemoryAccess : Prop :=
  (∀ (s : State) (off : Nat) (v : Byte) (rest : List Event), s.script = .access (.pixWrite off v) :: rest →
    (off < s.params.pixBytes → ∃ t, step s = .next t ∧ t = { s with script := rest, pix := t.pix } ∧
      ∀ a, Memory.read t.pix a = if a = off then some v else Memory.read s.pix a) ∧
    (s.params.pixBytes ≤ off → step s = .fault (.pixOutside off))) ∧
  (∀ (s : State) (off : Nat) (rest : List Event), s.script = .access (.pixRead off) :: rest →
    (∀ v, off < s.params.pixBytes → Memory.read s.pix off = some v →
      step s = .next { s with script := rest, readData := some v.toNat }) ∧
    (off < s.params.pixBytes → Memory.read s.pix off = none → step s = .fault (.pixUnwritten off)) ∧
    (s.params.pixBytes ≤ off → step s = .fault (.pixOutside off)))

/-- MSG as the host sees it: an element is written with a value of CPW bits (R37, R43; the stop is a fault by logs 7 and 8). -/
def Obligations.MessageMemoryAccess : Prop :=
  (∀ (s : State) (i v : Nat) (rest : List Event), s.script = .access (.msgWrite i v) :: rest → v < 2 ^ s.params.cpw →
    (i < s.params.msgDepth → ∃ t, step s = .next t ∧ t = { s with script := rest, msg := t.msg } ∧
      ∀ a, Memory.read t.msg a = if a = i then some v else Memory.read s.msg a) ∧
    (s.params.msgDepth ≤ i → step s = .fault (.msgOutside i))) ∧
  (∀ (s : State) (i : Nat) (rest : List Event), s.script = .access (.msgRead i) :: rest →
    (∀ v, i < s.params.msgDepth → Memory.read s.msg i = some v →
      step s = .next { s with script := rest, readData := some v }) ∧
    (i < s.params.msgDepth → Memory.read s.msg i = none → step s = .fault (.msgUnwritten i)) ∧
    (s.params.msgDepth ≤ i → step s = .fault (.msgOutside i)))

/-- The exclusive access rule: while ENCODE runs nobody accesses the buffer, while DECODE runs nobody writes the buffer
or reads MSG (R52 (a) to (c)), while any operation runs nobody writes MSG, whichever element (R154, U8; log 17), and while
any command is performed nobody accesses a register (R62, U11); a breach is refused. -/
def Obligations.ExclusiveAccessRefusal : Prop :=
  ∀ (s : State) (v : Nat) (others : List Transaction) (rest : List Event) (a : Transaction),
    s.script = .shared v others :: rest → a ∈ others →
    ((v = 2 ∧ ∃ off, off < s.width * s.height * s.stride ∧ (a = .pixRead off ∨ ∃ b, a = .pixWrite off b)) ∨
     (v = 3 ∧ ((∃ off b, off < s.width * s.height * s.stride ∧ a = .pixWrite off b) ∨ ∃ i, a = .msgRead i)) ∨
     ((v = 1 ∨ v = 2 ∨ v = 3) ∧ ∃ i m, a = .msgWrite i m) ∨
     (∃ off size, a = .regRead off size ∨ ∃ m, a = .regWrite off size m)) →
    ∃ r, r ∈ others ∧ step s = .refused (.sharedAccess r)

/-- DECODE with other agents only reading PIX behaves as if it ran alone (R52 (b), (d)): the state is that of the
operation alone but for what the other agents' reads returned, which the model's own field holds (log 2). That these
reads, inside the buffer's region or outside it, are permitted although U11 refuses a host access to a memory while an
operation runs is the model's choice (log 17, DESIGN CHOICE), and so is that they are performed after it (log 10). -/
def Obligations.DecodeSharesReads : Prop :=
  ∀ (s t : State) (offs : List Nat) (rest : List Event),
    s.script = .shared 3 (offs.map .pixRead) :: rest → 2 ≤ s.params.xlen →
    (∀ off, off ∈ offs → off < s.params.pixBytes ∧ (Memory.read s.pix off).isSome = true) →
    exec .decode { s with script := rest } = .next t →
    ∃ u, step s = .next u ∧ u = { t with readData := u.readData }

/-! A reset in the middle of any operation, and the parameters -/

/-- A reset that abandons an operation always has a next state, whatever memory accesses the operation would have met
later (R152). The registers take their reset values. ENCODE: each written byte keeps bits 7 to 1 and is the old byte or,
where it is the byte of a bit index k < need, one whose LSB is stream bit k; a byte without a value stays so. DECODE:
each element is the old one or, below the length the header spells, the decoded one. Where the operation raises an
error, for LOCATE and for an illegal command, both memories are unchanged. It holds for every value of the free value
`Config.landed` (log 11); what becomes of a target whose byte or element does not exist or holds no value is the model's
reading (log 12). -/
def Obligations.AbandonedOperationAlwaysAnswers : Prop :=
  ∀ (s : State) (v : Nat) (rest : List Event), s.Inv → s.script = .resetDuring v :: rest → v < 2 ^ s.params.xlen →
    ∃ u, step s = .next u ∧ (∀ r : Reg, readReg u r = if r = .hdrbits then 32 else 0) ∧
      u.script = rest ∧ u.params = s.params ∧
      (∀ a, Memory.read s.pix a = none → Memory.read u.pix a = none) ∧
      (∀ a old, Memory.read s.pix a = some old → ∃ new, Memory.read u.pix a = some new ∧
        (∀ j, 1 ≤ j → new.getLsbD j = old.getLsbD j) ∧
        (new = old ∨ (v = 2 ∧ cfgCodecOk s = true ∧ MessageRepresentable s s.msglen ∧ MessageFits s ∧
          ∃ k, k < requiredBits s ∧ a = bitOffset s k ∧ new.getLsbD 0 = streamBit s k))) ∧
      (∀ i, Memory.read u.msg i = Memory.read s.msg i ∨
        (v = 3 ∧ cfgCodecOk s = true ∧ s.hdrbits + carriedLength s * s.bpc ≤ capacity s ∧
          i < carriedLength s ∧ Memory.read u.msg i = some (carriedChar s i)))

/-- A host write of a value of more than XLEN bits to a register, or of more than CPW bits to an element of MSG, is
refused: no such transaction exists (R10, R21, R37); that it shows as a refusal is the model's choice (log 6), and so is
the one whole access to a register for an XLEN other than 32 (log 16). -/
def Obligations.TooWideValuesRefused : Prop :=
  (∀ (s : State) (offset v : Nat) (rest : List Event), offset % 4 = 0 → 2 ^ s.params.xlen ≤ v →
    s.script = .access (.regWrite offset .word v) :: rest → step s = .refused (.valueTooWide v)) ∧
  (∀ (s : State) (i v : Nat) (rest : List Event), 2 ^ s.params.cpw ≤ v →
    s.script = .access (.msgWrite i v) :: rest → step s = .refused (.valueTooWide v)) ∧
  (∀ (s : State) (v : Nat) (rest : List Event), 2 ^ s.params.xlen ≤ v →
    (s.script = .resetDuring v :: rest → step s = .refused (.valueTooWide v)) ∧
    (s.script = .shared v [] :: rest → step s = .refused (.valueTooWide v)))

/-- No step changes a parameter of the block (R6: compile-time parameters). -/
def Obligations.ParametersNeverChange : Prop :=
  ∀ s t : State, step s = .next t → t.params = s.params
end

