-- ==== Sys2Proof/Laws/Memory.lean ====
section
/-! SUPPORT. The laws of a memory: read after write, and that every operation keeps the canonical form and what holds of every entry.
The read and write laws need no canonical form: both walk the list alike. -/

namespace Sys2Proof.Machine

variable {β : Type}

@[simp] theorem Memory.read_nil (a : Nat) : Memory.read ([] : List (Nat × β)) a = none := rfl

@[simp] theorem Memory.read_write_same (m : List (Nat × β)) (a : Nat) (v : β) :
    Memory.read (Memory.write m a v) a = some v := by
  induction m with
  | nil => simp [Memory.write, Memory.read]
  | cons c m ih =>
    obtain ⟨b, w⟩ := c
    simp only [Memory.write]
    split
    · simp [Memory.read]
    · split
      · simp [Memory.read]
      · next h1 h2 => simp [Memory.read, h1, h2, ih]

theorem Memory.read_write_ne (m : List (Nat × β)) {a a' : Nat} (v : β) (h : a' ≠ a) :
    Memory.read (Memory.write m a v) a' = Memory.read m a' := by
  induction m with
  | nil => simp [Memory.write, Memory.read, h]
  | cons c m ih =>
    obtain ⟨b, w⟩ := c
    simp only [Memory.write]
    split
    · next hab =>
      simp only [Memory.read]
      by_cases h1 : a' < a
      · have h2 : a' < b := by omega
        simp [h1, h2]
      · simp [h1, h]
    · split
      · next hab => subst hab; simp [Memory.read, h]
      · simp only [Memory.read, ih]

/-- A read after a write, in one equation. -/
theorem Memory.read_write (m : List (Nat × β)) (a a' : Nat) (v : β) :
    Memory.read (Memory.write m a v) a' = if a' = a then some v else Memory.read m a' := by
  split
  · next h => subst h; simp
  · next h => exact Memory.read_write_ne m v h

/-- Writing back what is there changes nothing (R44: "the write also when the new byte equals the old one"). -/
theorem Memory.write_read (m : List (Nat × β)) {a : Nat} {v : β} (h : Memory.read m a = some v) :
    Memory.write m a v = m := by
  induction m with
  | nil => simp at h
  | cons c m ih =>
    obtain ⟨b, w⟩ := c
    simp only [Memory.read] at h
    simp only [Memory.write]
    split at h
    · cases h
    · next h1 =>
      split at h
      · next h2 => cases h; subst h2; simp
      · next h2 => simp [h1, h2, ih h]

/-! The canonical form -/

/-- Below every address of a canonical list, a new head keeps the form. -/
theorem Memory.wf_cons_write {b : Nat} {w : β} {m : List (Nat × β)} {a : Nat} {v : β} (hb : b < a)
    (h : Memory.wf ((b, w) :: m) = true) (hw : Memory.wf (Memory.write m a v) = true) :
    Memory.wf ((b, w) :: Memory.write m a v) = true := by
  cases m with
  | nil => simp [Memory.write, Memory.wf, hb]
  | cons c m =>
    obtain ⟨b', w'⟩ := c
    simp only [Memory.wf, Bool.and_eq_true, decide_eq_true_eq] at h
    simp only [Memory.write] at hw ⊢
    split at hw <;> rename_i h1
    · simp only [h1, ite_true]; simp [Memory.wf, hb] at hw ⊢; exact hw
    · split at hw <;> rename_i h2
      · simp only [h2, lt_irrefl, ite_false, ite_true]
        simp only [Memory.wf] at *; simp only [Bool.and_eq_true, decide_eq_true_eq]
        exact ⟨h2 ▸ hb, h2 ▸ hw⟩
      · simp only [h1, h2, ite_false]
        simp only [Memory.wf, Bool.and_eq_true, decide_eq_true_eq]
        exact ⟨h.1, hw⟩

theorem Memory.wf_tail {c : Nat × β} {m : List (Nat × β)} (h : Memory.wf (c :: m) = true) : Memory.wf m = true := by
  obtain ⟨a, v⟩ := c
  cases m with
  | nil => rfl
  | cons d m =>
    obtain ⟨b, w⟩ := d
    simp only [Memory.wf, Bool.and_eq_true] at h
    exact h.2

/-- A write keeps the canonical form. -/
theorem Memory.write_wf (m : List (Nat × β)) (a : Nat) (v : β) (h : Memory.wf m = true) :
    Memory.wf (Memory.write m a v) = true := by
  induction m with
  | nil => rfl
  | cons c m ih =>
    obtain ⟨b, w⟩ := c
    have ht := ih (Memory.wf_tail h)
    by_cases h1 : a < b
    · simp [Memory.write, h1, Memory.wf, h]
    · by_cases h2 : a = b
      · subst h2
        simp only [Memory.write, lt_irrefl, ite_false, ite_true]
        cases m with
        | nil => rfl
        | cons d m => obtain ⟨b', w'⟩ := d; simpa [Memory.wf] using h
      · simp only [Memory.write, h1, h2, ite_false]
        exact Memory.wf_cons_write (by omega) h ht

/-- A write that passes the test keeps a memory that passes it. -/
theorem Memory.write_every (p : Nat → β → Bool) (m : List (Nat × β)) (a : Nat) (v : β) (ha : p a v = true)
    (h : Memory.every p m = true) : Memory.every p (Memory.write m a v) = true := by
  induction m with
  | nil => simp [Memory.write, Memory.every, ha]
  | cons c m ih =>
    obtain ⟨b, w⟩ := c
    simp only [Memory.every, List.all_cons, Bool.and_eq_true] at h ih ⊢
    simp only [Memory.write]
    split
    · simp [ha, h.1, h.2]
    · split
      · simp [ha, h.2]
      · simpa [h.1] using ih h.2

/-- Mixing keeps the canonical form. -/
theorem Memory.mix_wf (pick : Nat → Bool) (old new : List (Nat × β)) (h : Memory.wf old = true) :
    Memory.wf (Memory.mix pick old new) = true := by
  induction new generalizing old with
  | nil => exact h
  | cons c new ih =>
    obtain ⟨a, v⟩ := c
    simp only [Memory.mix]
    apply ih
    split
    · exact Memory.write_wf old a v h
    · exact h

/-- Mixing two memories that pass the test gives one that passes it. -/
theorem Memory.mix_every (p : Nat → β → Bool) (pick : Nat → Bool) (old new : List (Nat × β))
    (h : Memory.every p old = true) (hn : Memory.every p new = true) : Memory.every p (Memory.mix pick old new) = true := by
  induction new generalizing old with
  | nil => exact h
  | cons c new ih =>
    obtain ⟨a, v⟩ := c
    simp only [Memory.every, List.all_cons, Bool.and_eq_true] at hn
    simp only [Memory.mix]
    apply ih
    · split
      · exact Memory.write_every p old a v hn.1 h
      · exact h
    · exact hn.2

/-- An address that is not listed in `new` reads as in `old` after mixing. -/
theorem Memory.read_mix_absent (pick : Nat → Bool) (old new : List (Nat × β)) (a : Nat)
    (h : ∀ c ∈ new, c.1 ≠ a) : Memory.read (Memory.mix pick old new) a = Memory.read old a := by
  induction new generalizing old with
  | nil => rfl
  | cons c new ih =>
    obtain ⟨b, v⟩ := c
    have hb : a ≠ b := fun e => h (b, v) (by simp) e.symm
    simp only [Memory.mix]
    rw [ih _ fun c hc => h c (by simp [hc])]
    split
    · exact Memory.read_write_ne old v hb
    · rfl

/-- Every address listed after the head of a canonical list is above the head's. -/
theorem Memory.wf_head_lt {a : Nat} {v : β} {m : List (Nat × β)} (h : Memory.wf ((a, v) :: m) = true) :
    ∀ c ∈ m, a < c.1 := by
  induction m generalizing a v with
  | nil => simp
  | cons d m ih =>
    obtain ⟨b, w⟩ := d
    simp only [Memory.wf, Bool.and_eq_true, decide_eq_true_eq] at h
    intro c hc
    rcases List.mem_cons.1 hc with rfl | hc
    · exact h.1
    · exact h.1.trans (ih h.2 c hc)

/-- What an address reads after mixing: the new content where it was picked and there is one, else the old. -/
theorem Memory.read_mix (pick : Nat → Bool) (old new : List (Nat × β)) (a : Nat) (h : Memory.wf new = true) :
    Memory.read (Memory.mix pick old new) a =
      match pick a, Memory.read new a with
      | true, some v => some v
      | _, _ => Memory.read old a := by
  induction new generalizing old with
  | nil => cases pick a <;> rfl
  | cons c new ih =>
    obtain ⟨b, v⟩ := c
    have hlt := Memory.wf_head_lt h
    simp only [Memory.mix, Memory.read]
    by_cases hab : a = b
    · subst hab
      rw [Memory.read_mix_absent pick _ new a fun c hc => (hlt c hc).ne']
      cases hp : pick a <;> simp
    · rw [ih _ (Memory.wf_tail h)]
      have hold : Memory.read (if pick b then Memory.write old b v else old) a = Memory.read old a := by
        split
        · exact Memory.read_write_ne old v hab
        · rfl
      rw [hold]
      by_cases h1 : a < b
      · have : Memory.read new a = none := by
          cases new with
          | nil => rfl
          | cons d new =>
            obtain ⟨b', w'⟩ := d
            have := hlt (b', w') (by simp)
            simp only [Memory.read]
            rw [if_pos (h1.trans this)]
        simp [h1, this]
      · simp [h1, hab]

end Sys2Proof.Machine
end

