-- ==== Sys2Proof/Laws/State.lean ====
section
/-! SUPPORT. One lemma per field for every named update of the state. -/

namespace Sys2Proof.Machine

/-! `complete` -/

@[simp] theorem complete_status (e : BitVec 3) (s : State) : (complete e s).status = statusWord e := rfl
@[simp] theorem complete_width (e : BitVec 3) (s : State) : (complete e s).width = s.width := rfl
@[simp] theorem complete_height (e : BitVec 3) (s : State) : (complete e s).height = s.height := rfl
@[simp] theorem complete_channels (e : BitVec 3) (s : State) : (complete e s).channels = s.channels := rfl
@[simp] theorem complete_stride (e : BitVec 3) (s : State) : (complete e s).stride = s.stride := rfl
@[simp] theorem complete_bpc (e : BitVec 3) (s : State) : (complete e s).bpc = s.bpc := rfl
@[simp] theorem complete_hdrbits (e : BitVec 3) (s : State) : (complete e s).hdrbits = s.hdrbits := rfl
@[simp] theorem complete_msglen (e : BitVec 3) (s : State) : (complete e s).msglen = s.msglen := rfl
@[simp] theorem complete_bitidx (e : BitVec 3) (s : State) : (complete e s).bitidx = s.bitidx := rfl
@[simp] theorem complete_locCh (e : BitVec 3) (s : State) : (complete e s).locCh = s.locCh := rfl
@[simp] theorem complete_locCol (e : BitVec 3) (s : State) : (complete e s).locCol = s.locCol := rfl
@[simp] theorem complete_locRow (e : BitVec 3) (s : State) : (complete e s).locRow = s.locRow := rfl
@[simp] theorem complete_k (e : BitVec 3) (s : State) : (complete e s).k = s.k := rfl
@[simp] theorem complete_pix (e : BitVec 3) (s : State) : (complete e s).pix = s.pix := rfl
@[simp] theorem complete_msg (e : BitVec 3) (s : State) : (complete e s).msg = s.msg := rfl
@[simp] theorem complete_params (e : BitVec 3) (s : State) : (complete e s).params = s.params := rfl
@[simp] theorem complete_script (e : BitVec 3) (s : State) : (complete e s).script = s.script := rfl
@[simp] theorem complete_readData (e : BitVec 3) (s : State) : (complete e s).readData = s.readData := rfl
@[simp] theorem complete_draws (e : BitVec 3) (s : State) : (complete e s).draws = s.draws := rfl

/-! `startCounter` -/

@[simp] theorem startCounter_status (s : State) : (startCounter s).status = s.status := rfl
@[simp] theorem startCounter_width (s : State) : (startCounter s).width = s.width := rfl
@[simp] theorem startCounter_height (s : State) : (startCounter s).height = s.height := rfl
@[simp] theorem startCounter_channels (s : State) : (startCounter s).channels = s.channels := rfl
@[simp] theorem startCounter_stride (s : State) : (startCounter s).stride = s.stride := rfl
@[simp] theorem startCounter_bpc (s : State) : (startCounter s).bpc = s.bpc := rfl
@[simp] theorem startCounter_hdrbits (s : State) : (startCounter s).hdrbits = s.hdrbits := rfl
@[simp] theorem startCounter_msglen (s : State) : (startCounter s).msglen = s.msglen := rfl
@[simp] theorem startCounter_bitidx (s : State) : (startCounter s).bitidx = s.bitidx := rfl
@[simp] theorem startCounter_locCh (s : State) : (startCounter s).locCh = s.locCh := rfl
@[simp] theorem startCounter_locCol (s : State) : (startCounter s).locCol = s.locCol := rfl
@[simp] theorem startCounter_locRow (s : State) : (startCounter s).locRow = s.locRow := rfl
@[simp] theorem startCounter_k (s : State) : (startCounter s).k = 0 := rfl
@[simp] theorem startCounter_pix (s : State) : (startCounter s).pix = s.pix := rfl
@[simp] theorem startCounter_msg (s : State) : (startCounter s).msg = s.msg := rfl
@[simp] theorem startCounter_params (s : State) : (startCounter s).params = s.params := rfl
@[simp] theorem startCounter_script (s : State) : (startCounter s).script = s.script := rfl
@[simp] theorem startCounter_readData (s : State) : (startCounter s).readData = s.readData := rfl
@[simp] theorem startCounter_draws (s : State) : (startCounter s).draws = s.draws := rfl

/-! `advance` -/

@[simp] theorem advance_status (s : State) : (advance s).status = s.status := rfl
@[simp] theorem advance_width (s : State) : (advance s).width = s.width := rfl
@[simp] theorem advance_height (s : State) : (advance s).height = s.height := rfl
@[simp] theorem advance_channels (s : State) : (advance s).channels = s.channels := rfl
@[simp] theorem advance_stride (s : State) : (advance s).stride = s.stride := rfl
@[simp] theorem advance_bpc (s : State) : (advance s).bpc = s.bpc := rfl
@[simp] theorem advance_hdrbits (s : State) : (advance s).hdrbits = s.hdrbits := rfl
@[simp] theorem advance_msglen (s : State) : (advance s).msglen = s.msglen := rfl
@[simp] theorem advance_bitidx (s : State) : (advance s).bitidx = s.bitidx := rfl
@[simp] theorem advance_locCh (s : State) : (advance s).locCh = s.locCh := rfl
@[simp] theorem advance_locCol (s : State) : (advance s).locCol = s.locCol := rfl
@[simp] theorem advance_locRow (s : State) : (advance s).locRow = s.locRow := rfl
@[simp] theorem advance_k (s : State) : (advance s).k = s.k + 1 := rfl
@[simp] theorem advance_pix (s : State) : (advance s).pix = s.pix := rfl
@[simp] theorem advance_msg (s : State) : (advance s).msg = s.msg := rfl
@[simp] theorem advance_params (s : State) : (advance s).params = s.params := rfl
@[simp] theorem advance_script (s : State) : (advance s).script = s.script := rfl
@[simp] theorem advance_readData (s : State) : (advance s).readData = s.readData := rfl
@[simp] theorem advance_draws (s : State) : (advance s).draws = s.draws := rfl

/-! `returned` -/

@[simp] theorem returned_status (v : Nat) (s : State) : (returned v s).status = s.status := rfl
@[simp] theorem returned_width (v : Nat) (s : State) : (returned v s).width = s.width := rfl
@[simp] theorem returned_height (v : Nat) (s : State) : (returned v s).height = s.height := rfl
@[simp] theorem returned_channels (v : Nat) (s : State) : (returned v s).channels = s.channels := rfl
@[simp] theorem returned_stride (v : Nat) (s : State) : (returned v s).stride = s.stride := rfl
@[simp] theorem returned_bpc (v : Nat) (s : State) : (returned v s).bpc = s.bpc := rfl
@[simp] theorem returned_hdrbits (v : Nat) (s : State) : (returned v s).hdrbits = s.hdrbits := rfl
@[simp] theorem returned_msglen (v : Nat) (s : State) : (returned v s).msglen = s.msglen := rfl
@[simp] theorem returned_bitidx (v : Nat) (s : State) : (returned v s).bitidx = s.bitidx := rfl
@[simp] theorem returned_locCh (v : Nat) (s : State) : (returned v s).locCh = s.locCh := rfl
@[simp] theorem returned_locCol (v : Nat) (s : State) : (returned v s).locCol = s.locCol := rfl
@[simp] theorem returned_locRow (v : Nat) (s : State) : (returned v s).locRow = s.locRow := rfl
@[simp] theorem returned_k (v : Nat) (s : State) : (returned v s).k = s.k := rfl
@[simp] theorem returned_pix (v : Nat) (s : State) : (returned v s).pix = s.pix := rfl
@[simp] theorem returned_msg (v : Nat) (s : State) : (returned v s).msg = s.msg := rfl
@[simp] theorem returned_params (v : Nat) (s : State) : (returned v s).params = s.params := rfl
@[simp] theorem returned_script (v : Nat) (s : State) : (returned v s).script = s.script := rfl
@[simp] theorem returned_readData (v : Nat) (s : State) : (returned v s).readData = some v := rfl
@[simp] theorem returned_draws (v : Nat) (s : State) : (returned v s).draws = s.draws := rfl

/-! `resetRegisters` -/

@[simp] theorem resetRegisters_status (s : State) : (resetRegisters s).status = 0 := rfl
@[simp] theorem resetRegisters_width (s : State) : (resetRegisters s).width = 0 := rfl
@[simp] theorem resetRegisters_height (s : State) : (resetRegisters s).height = 0 := rfl
@[simp] theorem resetRegisters_channels (s : State) : (resetRegisters s).channels = 0 := rfl
@[simp] theorem resetRegisters_stride (s : State) : (resetRegisters s).stride = 0 := rfl
@[simp] theorem resetRegisters_bpc (s : State) : (resetRegisters s).bpc = 0 := rfl
@[simp] theorem resetRegisters_hdrbits (s : State) : (resetRegisters s).hdrbits = 32 := rfl
@[simp] theorem resetRegisters_msglen (s : State) : (resetRegisters s).msglen = 0 := rfl
@[simp] theorem resetRegisters_bitidx (s : State) : (resetRegisters s).bitidx = 0 := rfl
@[simp] theorem resetRegisters_locCh (s : State) : (resetRegisters s).locCh = 0 := rfl
@[simp] theorem resetRegisters_locCol (s : State) : (resetRegisters s).locCol = 0 := rfl
@[simp] theorem resetRegisters_locRow (s : State) : (resetRegisters s).locRow = 0 := rfl
@[simp] theorem resetRegisters_k (s : State) : (resetRegisters s).k = 0 := rfl
@[simp] theorem resetRegisters_pix (s : State) : (resetRegisters s).pix = s.pix := rfl
@[simp] theorem resetRegisters_msg (s : State) : (resetRegisters s).msg = s.msg := rfl
@[simp] theorem resetRegisters_params (s : State) : (resetRegisters s).params = s.params := rfl
@[simp] theorem resetRegisters_script (s : State) : (resetRegisters s).script = s.script := rfl
@[simp] theorem resetRegisters_readData (s : State) : (resetRegisters s).readData = s.readData := rfl
@[simp] theorem resetRegisters_draws (s : State) : (resetRegisters s).draws = s.draws := rfl

end Sys2Proof.Machine
end

