-- ==== Sys2Proof/Laws/Ops.lean ====
section
/-! SUPPORT. One lemma per shared operation: when it answers a next state, and which. -/

namespace Sys2Proof.Machine

@[simp] theorem andThen_next {α β : Type} (a : α) (f : α → Result β) : andThen (.next a) f = f a := rfl

/-- A function of either answer is that function of the answer taken. -/
theorem ifNext_apply {α β : Type} (o : Result α) (d : α) (f : α → β) : ifNext o (f d) f = f (ifNext o d fun a => a) := by
  cases o <;> rfl

/-- A sequence answers a next value exactly when both parts do. -/
theorem andThen_eq_next {α β : Type} {o : Result α} {f : α → Result β} {b : β} :
    andThen o f = .next b ↔ ∃ a, o = .next a ∧ f a = .next b := by
  cases o <;> simp [andThen]

/-- A value that does not fit ends in a refusal. -/
theorem whenFits_eq_next {α : Type} {width v : Nat} {o : Result α} {a : α} :
    whenFits width v o = .next a ↔ v < 2 ^ width ∧ o = .next a := by
  unfold whenFits
  split <;> simp_all

theorem readPix_eq_next {s : State} {off : Nat} {v : Byte} :
    readPix s off = .next v ↔ off < s.params.pixBytes ∧ Memory.read s.pix off = some v := by
  unfold readPix
  split
  · split <;> simp_all
  · simp_all

theorem writePix_eq_next {s t : State} {off : Nat} {v : Byte} :
    writePix off v s = .next t ↔ off < s.params.pixBytes ∧ t = { s with pix := Memory.write s.pix off v } := by
  unfold writePix
  split <;> simp_all [eq_comm]

theorem readMsg_eq_next {s : State} {i : Nat} {v : Nat} :
    readMsg s i = .next v ↔ i < s.params.msgDepth ∧ Memory.read s.msg i = some v := by
  unfold readMsg
  split
  · split <;> simp_all
  · simp_all

theorem writeMsg_eq_next {s t : State} {i : Nat} {v : Nat} :
    writeMsg i v s = .next t ↔ i < s.params.msgDepth ∧ t = { s with msg := Memory.write s.msg i v } := by
  unfold writeMsg
  split <;> simp_all [eq_comm]

theorem raise_eq_next {e : ErrorKind} {s t : State} : raise e s = .next t ↔ t = complete e.code s := by
  simp [raise, eq_comm]

theorem succeed_eq_next {s t : State} : succeed s = .next t ↔ t = complete okCode s := by
  simp [succeed, eq_comm]

/-! Status words (R131) -/

@[simp] theorem statusWord_ok : statusWord okCode = 0 := by decide

theorem statusWord_code (e : ErrorKind) :
    statusWord e.code =
      match e with
      | .invalidMessage => 1
      | .messageTooLarge => 2
      | .imageTooSmall => 3
      | .truncatedPayload => 4
      | .badConfig => 5
      | .badCommand => 6 := by
  cases e <;> decide

theorem statusWord_code_ne_zero (e : ErrorKind) : statusWord e.code ≠ 0 := by
  cases e <;> decide

theorem statusWord_le (e : ErrorKind) : statusWord e.code ≤ 6 := by
  cases e <;> decide

end Sys2Proof.Machine
end

