-- ==== Sys2Proof/Laws/Bus.lean ====
section
/-! SUPPORT. The step in terms of the next event, and what the host's accesses do to it. -/

namespace Sys2Proof.Machine

/-- A step performs the next event, taken off the script. -/
theorem step_next_event {s : State} {e : Event} {rest : List Event} (h : s.script = e :: rest) :
    step s = perform e { s with script := rest } := by
  simp only [step, takeEvent, h]

/-- A step whose next event is the host's CMD write of an XLEN-bit value runs `command` (R22, R62). -/
theorem step_cmdWrite {s : State} {v : Nat} {rest : List Event}
    (h : s.script = .access (.regWrite 0x00 .word v) :: rest) (hv : v < 2 ^ s.params.xlen) :
    step s = command v { s with script := rest } := by
  rw [step_next_event h]
  exact if_pos hv

@[simp] theorem regAt_regOffset (r : Reg) : regAt (regOffset r) = some r := by cases r <;> rfl

@[simp] theorem regAccessDefined_regOffset (r : Reg) : regAccessDefined (regOffset r) .word = true := by cases r <;> rfl

/-- The machine performs only well-formed transactions: another is refused (R47). -/
theorem transact_wellFormed {t : Transaction} {s s' : State} (h : transact t s = .next s') : t.wellFormed s.params = true := by
  cases t with
  | regWrite offset size v =>
    simp only [transact] at h
    split at h
    · next hd =>
      simp only [Transaction.wellFormed, Bool.and_eq_true, decide_eq_true_eq]
      exact ⟨by simpa [regAccessDefined] using hd, (whenFits_eq_next.1 h).1⟩
    · cases h
  | regRead offset size =>
    simp only [transact] at h
    split at h
    · next hd => exact hd
    · cases h
  | msgWrite i v => simpa [Transaction.wellFormed] using (whenFits_eq_next.1 h).1
  | _ => rfl

/-- A host write of a register other than CMD leaves memories, counter and the model's own fields. -/
theorem writeReg_frame (r : Reg) (v : Nat) (s : State) :
    (writeReg r v s).status = s.status ∧ (writeReg r v s).k = s.k ∧ (writeReg r v s).pix = s.pix ∧
      (writeReg r v s).msg = s.msg ∧ (writeReg r v s).params = s.params ∧
      (writeReg r v s).script = s.script := by
  cases r <;> exact ⟨rfl, rfl, rfl, rfl, rfl, rfl⟩

end Sys2Proof.Machine
end

