-- ==== Sys2Proof/Laws/Operands.lean ====
section
/-! SUPPORT. What the operand operations do: the byte offset of a bit index, the one-bit accesses and their loops. -/

namespace Sys2Proof.Machine

/-! Legality -/

theorem cfgLocateOk_iff {s : State} : cfgLocateOk s = true ↔ 1 ≤ s.width ∧ 1 ≤ s.channels := by
  simp [cfgLocateOk]

theorem cfgCodecOk_iff {s : State} :
    cfgCodecOk s = true ↔
      1 ≤ s.width ∧ 1 ≤ s.channels ∧ s.channels ≤ s.stride
        ∧ (s.bpc = 7 ∨ s.bpc = 8) ∧ 1 ≤ s.hdrbits ∧ s.hdrbits ≤ s.params.hbMax := by
  simp only [cfgCodecOk, Bool.and_eq_true, Bool.or_eq_true, decide_eq_true_eq, and_assoc]

/-! The byte offset of a bit index -/

/-- The offset in closed form: WIDTH does not enter it (R42, C8). -/
theorem bitOffset_eq (s : State) (k : Nat) :
    bitOffset s k = k / s.channels * s.stride + k % s.channels := by
  have h : k / (s.width * s.channels) = k / s.channels / s.width := by
    rw [Nat.mul_comm, Nat.div_div_eq_div_mul]
  simp only [bitOffset, pixoff, locate, h]
  rw [Nat.mul_comm (_ / _ / _), Nat.div_add_mod]

/-- Quotient and remainder of an offset by STRIDE. -/
theorem bitOffset_div_mod {s : State} (hc : 1 ≤ s.channels) (hs : s.channels ≤ s.stride) (k : Nat) :
    bitOffset s k / s.stride = k / s.channels ∧ bitOffset s k % s.stride = k % s.channels := by
  have hlt : k % s.channels < s.stride := (Nat.mod_lt _ hc).trans_le hs
  rw [bitOffset_eq, Nat.mul_comm]
  constructor
  · rw [Nat.mul_add_div (by omega), Nat.div_eq_of_lt hlt, Nat.add_zero]
  · rw [Nat.mul_add_mod, Nat.mod_eq_of_lt hlt]

/-- Distinct bit indices live in distinct bytes (R48). -/
theorem bitOffset_injective {s : State} (hc : 1 ≤ s.channels) (hs : s.channels ≤ s.stride) {k k' : Nat}
    (h : bitOffset s k = bitOffset s k') : k = k' := by
  have h1 := bitOffset_div_mod hc hs k
  have h2 := bitOffset_div_mod hc hs k'
  rw [h] at h1
  have hd := h1.1.symm.trans h2.1
  have hm := h1.2.symm.trans h2.2
  rw [← Nat.div_add_mod k s.channels, hd, hm, Nat.div_add_mod]

/-- A bit index below the capacity lives inside the buffer's region (R30, R52). -/
theorem bitOffset_lt_region {s : State} (hc : 1 ≤ s.channels) (hs : s.channels ≤ s.stride) {k : Nat}
    (hk : k < capacity s) : bitOffset s k < regionBytes s := by
  rw [bitOffset_eq, regionBytes]
  have h1 : k / s.channels < s.width * s.height := by
    rw [Nat.div_lt_iff_lt_mul hc]; exact hk
  have h2 : k % s.channels < s.stride := (Nat.mod_lt _ hc).trans_le hs
  calc k / s.channels * s.stride + k % s.channels
      < (k / s.channels + 1) * s.stride := by rw [Nat.add_mul]; omega
    _ ≤ s.width * s.height * s.stride := Nat.mul_le_mul_right _ h1

/-! The overwrite rule -/

/-- Bit 0 becomes the bit, bits 7 to 1 stay (R44). -/
theorem overwriteLsb_getLsbD (old : Byte) (b : Bool) (j : Nat) :
    (overwriteLsb old b).getLsbD j = if j = 0 then b else old.getLsbD j := by
  by_cases hj : j < 8
  · have : ∀ (old : Byte) (b : Bool) (j : Fin 8),
        (overwriteLsb old b).getLsbD j = if (j : Nat) = 0 then b else old.getLsbD j := by decide +revert
    exact this old b ⟨j, hj⟩
  · rw [BitVec.getLsbD_of_ge _ _ (by omega), BitVec.getLsbD_of_ge _ _ (by omega)]
    split
    · omega
    · rfl

/-- Overwriting the LSB with its own value changes nothing. -/
theorem overwriteLsb_same (v : Byte) : overwriteLsb v (v.getLsbD 0) = v := by
  apply BitVec.eq_of_getLsbD_eq
  intro j _
  rw [overwriteLsb_getLsbD]
  split
  · next h => rw [h]
  · rfl

/-! One-bit accesses -/

theorem putBit_eq_next {b : Bool} {s t : State} :
    putBit b s = .next t ↔ ∃ old, bitOffset s s.k < s.params.pixBytes ∧ Memory.read s.pix (bitOffset s s.k) = some old ∧
      t = { s with pix := Memory.write s.pix (bitOffset s s.k) (overwriteLsb old b), k := s.k + 1 } := by
  simp only [putBit, andThen_eq_next, readPix_eq_next, writePix_eq_next]
  constructor
  · rintro ⟨old, ⟨h1, h2⟩, s', ⟨-, rfl⟩, h⟩
    cases h
    exact ⟨old, h1, h2, rfl⟩
  · rintro ⟨old, h1, h2, rfl⟩
    exact ⟨old, ⟨h1, h2⟩, _, ⟨h1, rfl⟩, rfl⟩

theorem getBit_eq_next {s : State} {p : Bool × State} :
    getBit s = .next p ↔ ∃ v, bitOffset s s.k < s.params.pixBytes ∧ Memory.read s.pix (bitOffset s s.k) = some v ∧
      p = (v.getLsbD 0, { s with k := s.k + 1 }) := by
  simp only [getBit, andThen_eq_next, readPix_eq_next]
  constructor
  · rintro ⟨v, ⟨h1, h2⟩, h⟩
    cases h
    exact ⟨v, h1, h2, rfl⟩
  · rintro ⟨v, h1, h2, rfl⟩
    exact ⟨v, ⟨h1, h2⟩, rfl⟩

/-! The emission of bits -/

/-- `m` is the pixel memory of `s` with the bits `f k` put at the bit indices `k` from `lo` below `hi`, the bytes
there being readable, and every other byte as it was. -/
structure Stamped (s : State) (m : List Host.Cell) (lo hi : Nat) (f : Nat → Bool) : Prop where
  at_bit : ∀ k, lo ≤ k → k < hi → ∃ old, bitOffset s k < s.params.pixBytes ∧ Memory.read s.pix (bitOffset s k) = some old ∧
    Memory.read m (bitOffset s k) = some (overwriteLsb old (f k))
  elsewhere : ∀ a, (∀ k, lo ≤ k → k < hi → a ≠ bitOffset s k) → Memory.read m a = Memory.read s.pix a

theorem Stamped.nil (s : State) (lo : Nat) (f : Nat → Bool) : Stamped s s.pix lo lo f :=
  ⟨fun k h1 h2 => absurd h2 (by omega), fun _ _ => rfl⟩

/-- Two emissions, one after the other. -/
theorem Stamped.trans {s : State} {m m' : List Host.Cell} {lo mid hi : Nat} {f : Nat → Bool} (hc : 1 ≤ s.channels)
    (hs : s.channels ≤ s.stride) (h1 : lo ≤ mid) (h2 : mid ≤ hi) (h : Stamped s m lo mid f) {j : Nat}
    (h' : Stamped { s with pix := m, k := j } m' mid hi f) : Stamped s m' lo hi f := by
  constructor
  · intro k hlo hhi
    by_cases hk : k < mid
    · obtain ⟨old, ha, hb, hd⟩ := h.at_bit k hlo hk
      refine ⟨old, ha, hb, ?_⟩
      rw [← hd]
      exact h'.elsewhere _ fun k' hk' _ e => by
        have := bitOffset_injective (s := s) hc hs e
        omega
    · obtain ⟨old, ha, hb, hd⟩ := h'.at_bit k (by omega) hhi
      refine ⟨old, ha, ?_, hd⟩
      rw [← hb]
      exact (h.elsewhere _ fun k' _ hk' e => by
        have := bitOffset_injective (s := s) hc hs e
        omega).symm
  · intro a ha
    have e1 : Memory.read m' a = Memory.read m a := h'.elsewhere a fun k hk hk' => ha k (by omega) hk'
    rw [e1]
    exact h.elsewhere a fun k hk hk' => ha k hk (by omega)

/-- Everything `putBits` can do: it advances k by n and stamps the n low bits of v, most significant first. -/
theorem putBits_spec {v n : Nat} {s t : State} (hc : 1 ≤ s.channels) (hs : s.channels ≤ s.stride)
    (h : putBits v n s = .next t) :
    t = { s with pix := t.pix, k := s.k + n } ∧
      Stamped s t.pix s.k (s.k + n) fun k => v.testBit (n - 1 - (k - s.k)) := by
  induction n generalizing s with
  | zero =>
    cases h
    exact ⟨rfl, Stamped.nil _ _ _⟩
  | succ n ih =>
    simp only [putBits, andThen_eq_next] at h
    obtain ⟨s', h1, h2⟩ := h
    obtain ⟨old, hb, hr, rfl⟩ := putBit_eq_next.1 h1
    obtain ⟨e, hst⟩ := ih (s := { s with pix := _, k := s.k + 1 }) hc hs h2
    refine ⟨by rw [e]; simp [Nat.add_assoc, Nat.add_comm 1], ?_⟩
    have hst' : Stamped { s with pix := Memory.write s.pix (bitOffset s s.k) (overwriteLsb old (v.testBit n)), k := s.k + 1 }
        t.pix (s.k + 1) (s.k + (n + 1)) fun k => v.testBit (n + 1 - 1 - (k - s.k)) := by
      constructor
      · intro k h3 h4
        obtain ⟨o, ha, hb, hd⟩ := hst.at_bit k h3 (by simp; omega)
        refine ⟨o, ha, hb, ?_⟩
        simp only at hd h3
        rw [hd]
        congr 3
        omega
      · intro a ha
        exact hst.elsewhere a fun k h3 h4 => ha k h3 (by simp at h4; omega)
    refine Stamped.trans hc hs (mid := s.k + 1) (by omega) (by omega) ?_ hst'
    constructor
    · intro k h3 h4
      obtain rfl : k = s.k := by omega
      exact ⟨old, hb, hr, by simp⟩
    · intro a ha
      exact Memory.read_write_ne _ _ (ha s.k (by omega) (by omega))

/-- `putBits` completes when the bytes it needs are ready. -/
theorem putBits_complete {v n : Nat} {s : State}
    (h : ∀ k, s.k ≤ k → k < s.k + n → bitOffset s k < s.params.pixBytes ∧ (Memory.read s.pix (bitOffset s k)).isSome = true) :
    ∃ t, putBits v n s = .next t := by
  induction n generalizing s with
  | zero => exact ⟨s, rfl⟩
  | succ n ih =>
    obtain ⟨hb, hr⟩ := h s.k (by omega) (by omega)
    obtain ⟨old, hold⟩ := Option.isSome_iff_exists.1 hr
    have h1 : putBit (v.testBit n) s = .next _ := putBit_eq_next.2 ⟨old, hb, hold, rfl⟩
    simp only [putBits, h1, andThen_next]
    apply ih
    intro k h2 h3
    obtain ⟨h4, h5⟩ := h k (by simp at h2; omega) (by simp at h3; omega)
    refine ⟨h4, ?_⟩
    change (Memory.read (Memory.write _ _ _) (bitOffset s k)).isSome = true
    rw [Memory.read_write]
    split
    · rfl
    · exact h5

/-- Putting the bits that are already there changes only the counter. -/
theorem putBits_same {v n : Nat} {s t : State} (h : putBits v n s = .next t)
    (hb : ∀ k, s.k ≤ k → k < s.k + n → carriedBit s k = v.testBit (n - 1 - (k - s.k))) : t = { s with k := s.k + n } := by
  induction n generalizing s with
  | zero => cases h; rfl
  | succ n ih =>
    simp only [putBits, andThen_eq_next] at h
    obtain ⟨s', h1, h2⟩ := h
    obtain ⟨old, hlt, hr, rfl⟩ := putBit_eq_next.1 h1
    have h0 := hb s.k (by omega) (by omega)
    simp only [carriedBit, hr, Nat.sub_self, Nat.sub_zero, Nat.add_sub_cancel] at h0
    rw [← h0, overwriteLsb_same, Memory.write_read _ hr] at h2
    have := ih h2 fun k h3 h4 => by
      simp only at h3 h4 ⊢
      have := hb k (by omega) (by omega)
      rw [show n - 1 - (k - (s.k + 1)) = n + 1 - 1 - (k - s.k) by omega]
      exact this
    rw [this]
    simp [Nat.add_assoc, Nat.add_comm 1]

/-! The reading of bits -/

theorem toNat_eq_shift_or (acc : Nat) (b : Bool) : (acc <<< 1) ||| b.toNat = 2 * acc + b.toNat := by
  have h : b.toNat < 2 ^ 1 := by cases b <;> decide
  rw [Nat.shiftLeft_eq, Nat.mul_comm, ← Nat.two_pow_add_eq_or_of_lt h]

theorem carriedField_congr {s t : State} (n start start' : Nat)
    (h : ∀ j, j < n → carriedBit t (start' + j) = carriedBit s (start + j)) :
    carriedField t start' n = carriedField s start n := by
  induction n with
  | zero => rfl
  | succ n ih =>
    simp only [carriedField]
    rw [ih fun j hj => h j (by omega), h n (by omega)]

/-- The field read from its first bit on. -/
theorem carriedField_front (s : State) (start n : Nat) :
    carriedField s start (n + 1) = (carriedBit s start).toNat * 2 ^ n + carriedField s (start + 1) n := by
  induction n with
  | zero => simp [carriedField]
  | succ n ih =>
    rw [carriedField, ih, carriedField, Nat.pow_succ]
    rw [show start + (n + 1) = start + 1 + n by omega]
    ring

/-- What a buffer carries does not depend on the events still to come. -/
@[simp] theorem carriedLength_script (s : State) (rest : List Event) :
    carriedLength { s with script := rest } = carriedLength s := carriedField_congr _ _ _ fun _ _ => rfl

@[simp] theorem carriedChar_script (s : State) (rest : List Event) (i : Nat) :
    carriedChar { s with script := rest } i = carriedChar s i := carriedField_congr _ _ _ fun _ _ => rfl

theorem carriedField_lt (s : State) (start n : Nat) : carriedField s start n < 2 ^ n := by
  induction n with
  | zero => simp [carriedField]
  | succ n ih =>
    have := Bool.toNat_lt (carriedBit s (start + n))
    rw [carriedField, Nat.pow_succ]
    omega

/-- The first bit read is the most significant (R70). -/
theorem carriedField_testBit (s : State) (start n j : Nat) (h : j < n) :
    (carriedField s start n).testBit (n - 1 - j) = carriedBit s (start + j) := by
  induction n with
  | zero => omega
  | succ n ih =>
    rw [carriedField]
    by_cases hj : j = n
    · subst hj
      simp only [Nat.add_sub_cancel, Nat.sub_self, Nat.testBit_zero]
      cases carriedBit s (start + j) <;> simp [Nat.add_mod]
    · rw [show n + 1 - 1 - j = (n - 1 - j) + 1 by omega, Nat.testBit_succ]
      have : (2 * carriedField s start n + (carriedBit s (start + n)).toNat) / 2 = carriedField s start n := by
        have := Bool.toNat_lt (carriedBit s (start + n))
        omega
      rw [this]
      exact ih (by omega)

/-- A buffer that carries the bits of `v` carries the field `v`. -/
theorem carriedField_eq {s : State} {start n v : Nat} (hv : v < 2 ^ n)
    (h : ∀ j, j < n → carriedBit s (start + j) = v.testBit (n - 1 - j)) : carriedField s start n = v := by
  apply Nat.eq_of_testBit_eq
  intro i
  by_cases hi : i < n
  · have := carriedField_testBit s start n (n - 1 - i) (by omega)
    rw [h _ (by omega)] at this
    rwa [show n - 1 - (n - 1 - i) = i by omega] at this
  · have hp : 2 ^ n ≤ 2 ^ i := Nat.pow_le_pow_right (by decide) (by omega)
    rw [Nat.testBit_lt_two_pow ((carriedField_lt s start n).trans_le hp), Nat.testBit_lt_two_pow (hv.trans_le hp)]

/-- Everything `getBits` can do: the field is accumulated, k advances by n, the bytes were readable. -/
theorem getBits_eq_next {n acc : Nat} {s : State} {p : Nat × State} :
    getBits n acc s = .next p ↔
      (∀ k, s.k ≤ k → k < s.k + n → bitOffset s k < s.params.pixBytes ∧ (Memory.read s.pix (bitOffset s k)).isSome = true) ∧
      p = (acc * 2 ^ n + carriedField s s.k n, { s with k := s.k + n }) := by
  induction n generalizing s acc with
  | zero =>
    simp only [getBits, carriedField, Nat.pow_zero, Nat.mul_one, Nat.add_zero, Host.Outcome.next.injEq]
    exact ⟨fun h => ⟨fun k h1 h2 => absurd h1 (by omega), h.symm⟩, fun h => h.2.symm⟩
  | succ n ih =>
    simp only [getBits, andThen_eq_next]
    constructor
    · rintro ⟨q, h1, h2⟩
      obtain ⟨v, hlt, hr, rfl⟩ := getBit_eq_next.1 h1
      obtain ⟨h3, rfl⟩ := ih.1 h2
      constructor
      · intro k h4 h5
        by_cases hk : k = s.k
        · subst hk; exact ⟨hlt, by simp [hr]⟩
        · exact h3 k (by simp; omega) (by simp; omega)
      · have hcb : carriedBit s s.k = v.getLsbD 0 := by simp [carriedBit, hr]
        rw [carriedField_front, hcb, toNat_eq_shift_or]
        have hcg : carriedField { s with k := s.k + 1 } (s.k + 1) n = carriedField s (s.k + 1) n :=
          carriedField_congr n _ _ fun _ _ => rfl
        simp only [Prod.mk.injEq]
        constructor
        · rw [hcg, Nat.pow_succ]; ring
        · simp [Nat.add_assoc, Nat.add_comm 1]
    · rintro ⟨h, rfl⟩
      obtain ⟨hlt, hr⟩ := h s.k (by omega) (by omega)
      obtain ⟨v, hv⟩ := Option.isSome_iff_exists.1 hr
      refine ⟨_, getBit_eq_next.2 ⟨v, hlt, hv, rfl⟩, ih.2 ⟨?_, ?_⟩⟩
      · intro k h4 h5
        exact h k (by simp at h4; omega) (by simp at h5; omega)
      · have hcb : carriedBit s s.k = v.getLsbD 0 := by simp [carriedBit, hv]
        rw [carriedField_front, hcb, toNat_eq_shift_or]
        have hcg : carriedField { s with k := s.k + 1 } (s.k + 1) n = carriedField s (s.k + 1) n :=
          carriedField_congr n _ _ fun _ _ => rfl
        simp only [Prod.mk.injEq]
        constructor
        · rw [hcg, Nat.pow_succ]; ring
        · simp [Nat.add_assoc, Nat.add_comm 1]

end Sys2Proof.Machine
end

