-- ==== Sys2Proof/Laws/Codec.lean ====
section
/-! SUPPORT. What the parts of ENCODE and DECODE can do, and the cases in which an operation answers a next state. -/

namespace Sys2Proof.Machine

/-! Validation of the message (R92) -/

/-- The test passes exactly when every element is readable and representable. -/
theorem messageValid_true {s : State} {n i : Nat} :
    messageValid s n i = .next true ↔
      ∀ j, i ≤ j → j < i + n → j < s.params.msgDepth ∧ (Memory.read s.msg j).isSome = true ∧ codepoint s j < 2 ^ s.bpc := by
  induction n generalizing i with
  | zero => simp only [messageValid, true_iff]; omega
  | succ n ih =>
    simp only [messageValid, andThen_eq_next, readMsg_eq_next]
    constructor
    · rintro ⟨cp, ⟨h1, h2⟩, h3⟩ j h4 h5
      split at h3
      · next hlt =>
        by_cases hj : j = i
        · subst hj; exact ⟨h1, by simp [h2], by simpa [codepoint, h2] using hlt⟩
        · exact ih.1 h3 j (by omega) (by omega)
      · cases h3
    · intro h
      obtain ⟨h1, h2, h3⟩ := h i (by omega) (by omega)
      obtain ⟨cp, hcp⟩ := Option.isSome_iff_exists.1 h2
      simp only [codepoint, hcp] at h3
      refine ⟨cp, ⟨h1, hcp⟩, ?_⟩
      rw [if_pos h3]
      exact ih.2 fun j h4 h5 => h j (by omega) (by omega)

/-- The test fails exactly at a first unrepresentable element, the elements before it being readable and
representable; what stands beyond it does not matter. -/
theorem messageValid_false {s : State} {n i : Nat} :
    messageValid s n i = .next false ↔
      ∃ m, i ≤ m ∧ m < i + n ∧
        (∀ j, i ≤ j → j < m → j < s.params.msgDepth ∧ (Memory.read s.msg j).isSome = true ∧ codepoint s j < 2 ^ s.bpc) ∧
        m < s.params.msgDepth ∧ (Memory.read s.msg m).isSome = true ∧ 2 ^ s.bpc ≤ codepoint s m := by
  induction n generalizing i with
  | zero =>
    simp only [messageValid, Host.Outcome.next.injEq, Bool.true_eq_false, false_iff]
    rintro ⟨m, h1, h2, -⟩
    omega
  | succ n ih =>
    simp only [messageValid, andThen_eq_next, readMsg_eq_next]
    constructor
    · rintro ⟨cp, ⟨h1, h2⟩, h3⟩
      split at h3
      · next hlt =>
        obtain ⟨m, h4, h5, h6, h7⟩ := ih.1 h3
        refine ⟨m, by omega, by omega, ?_, h7⟩
        intro j h8 h9
        by_cases hj : j = i
        · subst hj; exact ⟨h1, by simp [h2], by simpa [codepoint, h2] using hlt⟩
        · exact h6 j (by omega) h9
      · next hge => exact ⟨i, le_refl _, by omega, fun j _ _ => by omega, h1, by simp [h2], by simp [codepoint, h2]; omega⟩
    · rintro ⟨m, h1, h2, h3, h4, h5, h6⟩
      by_cases hm : m = i
      · subst hm
        obtain ⟨cp, hcp⟩ := Option.isSome_iff_exists.1 h5
        simp only [codepoint, hcp] at h6
        exact ⟨cp, ⟨h4, hcp⟩, by rw [if_neg (by omega)]⟩
      · obtain ⟨h7, h8, h9⟩ := h3 i (le_refl _) (by omega)
        obtain ⟨cp, hcp⟩ := Option.isSome_iff_exists.1 h8
        simp only [codepoint, hcp] at h9
        refine ⟨cp, ⟨h7, hcp⟩, ?_⟩
        rw [if_pos h9]
        exact ih.2 ⟨m, by omega, by omega, fun j h10 h11 => h3 j (by omega) h11, h4, h5, h6⟩

/-! The size tests (R93, R114) -/

theorem messageTooLarge_eq_true {s : State} :
    messageTooLarge s = true ↔ capacity s < requiredBits s ∨ 2 ^ s.hdrbits - 1 < s.msglen := by
  simp only [messageTooLarge, Bool.or_eq_true, decide_eq_true_eq]

theorem messageTooLarge_eq_false {s : State} : messageTooLarge s = false ↔ MessageFits s := by
  rw [← Bool.not_eq_true, messageTooLarge_eq_true, not_or, Nat.not_lt, Nat.not_lt]

theorem payloadTruncated_eq_true {s : State} {len : Nat} :
    payloadTruncated s len = true ↔ capacity s < s.hdrbits + len * s.bpc := by
  simp only [payloadTruncated, decide_eq_true_eq]

theorem payloadTruncated_eq_false {s : State} {len : Nat} :
    payloadTruncated s len = false ↔ s.hdrbits + len * s.bpc ≤ capacity s := by
  rw [← Bool.not_eq_true, payloadTruncated_eq_true, Nat.not_lt]

/-! The emission of the payload (R95) -/

/-- Quotient and remainder of a position inside the payload. -/
theorem position_div_mod {i j b : Nat} (h : j < b) : (i * b + j) / b = i ∧ (i * b + j) % b = j := by
  rw [Nat.mul_comm]
  exact ⟨by rw [Nat.mul_add_div (by omega), Nat.div_eq_of_lt h, Nat.add_zero], by rw [Nat.mul_add_mod, Nat.mod_eq_of_lt h]⟩

/-- Everything `putChars` can do: it advances k by n * BPC and stamps the characters' bits. -/
theorem putChars_spec {n i : Nat} {s t : State} (hc : 1 ≤ s.channels) (hs : s.channels ≤ s.stride)
    (hb : 1 ≤ s.bpc) (h : putChars n i s = .next t) :
    t = { s with pix := t.pix, k := s.k + n * s.bpc } ∧
      Stamped s t.pix s.k (s.k + n * s.bpc) fun k =>
        (codepoint s (i + (k - s.k) / s.bpc)).testBit (s.bpc - 1 - (k - s.k) % s.bpc) := by
  induction n generalizing s i with
  | zero =>
    cases h
    exact ⟨by simp, by simpa using Stamped.nil _ _ _⟩
  | succ n ih =>
    simp only [putChars, andThen_eq_next, readMsg_eq_next] at h
    obtain ⟨cp, ⟨hd, hcp⟩, s', h1, h2⟩ := h
    obtain ⟨e1, st1⟩ := putBits_spec hc hs h1
    rw [e1] at h2
    obtain ⟨e2, st2⟩ := ih (s := { s with pix := s'.pix, k := s.k + s.bpc }) hc hs hb h2
    have hk : s.k + s.bpc + n * s.bpc = s.k + (n + 1) * s.bpc := by ring
    refine ⟨by rw [e2]; simp only [hk], ?_⟩
    refine Stamped.trans hc hs (mid := s.k + s.bpc) (j := s.k + s.bpc) (m := s'.pix) (by omega) (by rw [← hk]; omega) ?_ ?_
    · refine ⟨fun k h3 h4 => ?_, st1.elsewhere⟩
      obtain ⟨old, ha, hb', hm⟩ := st1.at_bit k h3 h4
      refine ⟨old, ha, hb', ?_⟩
      rw [hm]
      have hq := position_div_mod (i := 0) (j := k - s.k) (b := s.bpc) (by omega)
      simp only [Nat.zero_mul, Nat.zero_add] at hq
      rw [hq.1, hq.2]
      simp [codepoint, hcp]
    · rw [← hk]
      refine ⟨fun k h3 h4 => ?_, st2.elsewhere⟩
      obtain ⟨old, ha, hb', hm⟩ := st2.at_bit k h3 h4
      refine ⟨old, ha, hb', ?_⟩
      rw [hm]
      have hsub : k - s.k = (k - (s.k + s.bpc)) + s.bpc := by omega
      rw [hsub, Nat.add_div_right _ (by omega), Nat.add_mod_right]
      rw [show i + ((k - (s.k + s.bpc)) / s.bpc).succ = i + 1 + (k - (s.k + s.bpc)) / s.bpc by omega]
      rfl

/-- A byte that was readable is readable after bits were put. -/
theorem Stamped.isSome {s : State} {m : List Host.Cell} {lo hi : Nat} {f : Nat → Bool} (h : Stamped s m lo hi f) {a : Nat}
    (ha : (Memory.read s.pix a).isSome = true) : (Memory.read m a).isSome = true := by
  by_cases hx : ∃ k, lo ≤ k ∧ k < hi ∧ a = bitOffset s k
  · obtain ⟨k, h1, h2, rfl⟩ := hx
    obtain ⟨old, -, -, hm⟩ := h.at_bit k h1 h2
    simp [hm]
  · rw [h.elsewhere a fun k h1 h2 e => hx ⟨k, h1, h2, e⟩]
    exact ha

/-- `putChars` completes when the elements and bytes it needs are ready. -/
theorem putChars_complete {n i : Nat} {s : State} (hc : 1 ≤ s.channels) (hs : s.channels ≤ s.stride)
    (hm : ∀ j, i ≤ j → j < i + n → j < s.params.msgDepth ∧ (Memory.read s.msg j).isSome = true)
    (h : ∀ k, s.k ≤ k → k < s.k + n * s.bpc →
      bitOffset s k < s.params.pixBytes ∧ (Memory.read s.pix (bitOffset s k)).isSome = true) :
    ∃ t, putChars n i s = .next t := by
  induction n generalizing s i with
  | zero => exact ⟨s, rfl⟩
  | succ n ih =>
    obtain ⟨hd, hr⟩ := hm i (by omega) (by omega)
    obtain ⟨cp, hcp⟩ := Option.isSome_iff_exists.1 hr
    have hk : s.k + s.bpc + n * s.bpc = s.k + (n + 1) * s.bpc := by ring
    obtain ⟨s', hs'⟩ := putBits_complete (v := cp) (n := s.bpc) (s := s)
      fun k h1 h2 => h k h1 (by rw [← hk]; omega)
    simp only [putChars, readMsg_eq_next.2 ⟨hd, hcp⟩, andThen_next, hs']
    obtain ⟨e, st⟩ := putBits_spec hc hs hs'
    rw [e]
    apply ih (s := { s with pix := s'.pix, k := s.k + s.bpc }) hc hs
    · intro j h1 h2
      exact hm j (by omega) (by omega)
    · intro k h1 h2
      obtain ⟨h3, h4⟩ := h k (by simp at h1; omega) (by rw [← hk]; exact h2)
      exact ⟨h3, st.isSome h4⟩

/-- Putting the characters a buffer already carries changes only the counter. -/
theorem putChars_same {n i : Nat} {s t : State} (hb : 1 ≤ s.bpc) (h : putChars n i s = .next t)
    (hf : ∀ j, j < n → codepoint s (i + j) = carriedField s (s.k + j * s.bpc) s.bpc) :
    t = { s with k := s.k + n * s.bpc } := by
  induction n generalizing s i with
  | zero => cases h; simp
  | succ n ih =>
    simp only [putChars, andThen_eq_next, readMsg_eq_next] at h
    obtain ⟨cp, ⟨hd, hcp⟩, s', h1, h2⟩ := h
    have h0 := hf 0 (by omega)
    simp only [codepoint, hcp, Nat.add_zero, Nat.zero_mul] at h0
    have e := putBits_same h1 fun k h3 h4 => by
      rw [h0, carriedField_testBit s s.k s.bpc (k - s.k) (by omega)]
      congr 1
      omega
    rw [e] at h2
    have := ih (s := { s with k := s.k + s.bpc }) hb h2 fun j hj => by
      have hj' := hf (j + 1) (by omega)
      rw [show i + (j + 1) = i + 1 + j by omega] at hj'
      change codepoint s (i + 1 + j) = _
      rw [hj']
      refine carriedField_congr _ _ _ fun x _ => ?_
      change carriedBit s _ = carriedBit s _
      congr 1
      ring
    rw [this]
    simp only [Nat.add_mul, Nat.one_mul, Nat.add_assoc, Nat.add_comm s.bpc]

/-- The header, from bit index 0 (R94). -/
theorem putHeader_spec {s t : State} (hc : 1 ≤ s.channels) (hs : s.channels ≤ s.stride)
    (h : putBits s.msglen s.hdrbits (startCounter s) = .next t) :
    t = { s with pix := t.pix, k := s.hdrbits } ∧
      Stamped s t.pix 0 s.hdrbits fun k => s.msglen.testBit (s.hdrbits - 1 - k) := by
  obtain ⟨e, st⟩ := putBits_spec (s := startCounter s) hc hs h
  simp only [startCounter_k, Nat.zero_add] at e st
  exact ⟨e, st.at_bit, st.elsewhere⟩

/-- Everything `emitStream` can do: STATUS 0, k = need, and the whole stream stamped from bit index 0. -/
theorem emitStream_spec {s t : State} (hc : 1 ≤ s.channels) (hs : s.channels ≤ s.stride)
    (hb : 1 ≤ s.bpc) (h : emitStream s = .next t) :
    t = { s with pix := t.pix, k := requiredBits s, status := 0 } ∧ Stamped s t.pix 0 (requiredBits s) (streamBit s) := by
  simp only [emitStream, andThen_eq_next, succeed_eq_next] at h
  obtain ⟨s1, h1, s2, h2, rfl⟩ := h
  obtain ⟨e1, st1⟩ := putHeader_spec hc hs h1
  rw [e1] at h2
  obtain ⟨e2, st2⟩ := putChars_spec (s := { s with pix := s1.pix, k := s.hdrbits }) hc hs hb h2
  refine ⟨by rw [e2]; rfl, Stamped.trans hc hs (mid := s.hdrbits) (j := s.hdrbits) (m := s1.pix)
    (Nat.zero_le _) (Nat.le_add_right _ _) ?_ ?_⟩
  · refine ⟨fun k h3 h4 => ?_, st1.elsewhere⟩
    obtain ⟨old, ha, hb', hm⟩ := st1.at_bit k h3 h4
    exact ⟨old, ha, hb', by rw [hm, streamBit, if_pos h4]⟩
  · refine ⟨fun k h3 h4 => ?_, st2.elsewhere⟩
    obtain ⟨old, ha, hb', hm⟩ := st2.at_bit k h3 h4
    refine ⟨old, ha, hb', ?_⟩
    rw [streamBit, if_neg (Nat.not_lt.2 h3), ← Nat.zero_add ((k - s.hdrbits) / s.bpc)]
    exact hm

/-- `emitStream` completes when the elements and bytes it needs are ready. -/
theorem emitStream_complete {s : State} (hc : 1 ≤ s.channels) (hs : s.channels ≤ s.stride)
    (hm : MessageReady s s.msglen) (h : BitsReady s (requiredBits s)) : ∃ t, emitStream s = .next t := by
  obtain ⟨s1, h1⟩ := putBits_complete (v := s.msglen) (n := s.hdrbits) (s := startCounter s)
    fun k _ h2 => h k (by simp [requiredBits] at h2 ⊢; omega)
  obtain ⟨e1, st1⟩ := putHeader_spec hc hs h1
  obtain ⟨s2, h2⟩ : ∃ s2, putChars s.msglen 0 { s with pix := s1.pix, k := s.hdrbits } = .next s2 := by
    apply putChars_complete (s := { s with pix := s1.pix, k := s.hdrbits }) hc hs
    · intro j _ h2
      exact hm j (by omega)
    · intro k h2 h3
      obtain ⟨h4, h5⟩ := h k h3
      exact ⟨h4, st1.isSome h5⟩
  rw [← e1] at h2
  exact ⟨complete okCode s2, by simp only [emitStream, h1, andThen_next, h2, succeed]⟩

/-- Emitting the stream a buffer already carries changes only the counter and STATUS. -/
theorem emitStream_same {s t : State} (hb : 1 ≤ s.bpc) (h : emitStream s = .next t)
    (hl : s.msglen = carriedLength s) (hf : ∀ j, j < s.msglen → codepoint s j = carriedChar s j) :
    t = { s with k := requiredBits s, status := 0 } := by
  simp only [emitStream, andThen_eq_next, succeed_eq_next] at h
  obtain ⟨s1, h1, s2, h2, rfl⟩ := h
  have e1 := putBits_same h1 fun k _ h4 => by
    simp only [startCounter_k, Nat.zero_add, Nat.sub_zero] at h4 ⊢
    rw [hl, carriedLength, carriedField_testBit s 0 _ k h4, Nat.zero_add]
    rfl
  rw [e1] at h2
  simp only [startCounter_k, Nat.zero_add] at h2
  have e2 := putChars_same (s := { s with k := s.hdrbits }) hb h2 fun j hj => by
    rw [Nat.zero_add]
    change codepoint s j = _
    rw [hf j hj]
    exact carriedField_congr _ _ _ fun _ _ => rfl
  rw [e2]
  rfl

/-! The reading of the payload (R115) -/

/-- One character: the bytes of its bits were readable, the element exists and takes the character the buffer carries. -/
theorem getChar_eq_next {i : Nat} {s t : State} :
    getChar i s = .next t ↔
      (∀ k, s.k ≤ k → k < s.k + s.bpc →
        bitOffset s k < s.params.pixBytes ∧ (Memory.read s.pix (bitOffset s k)).isSome = true) ∧
      i < s.params.msgDepth ∧
      t = { s with msg := Memory.write s.msg i (carriedField s s.k s.bpc), k := s.k + s.bpc } := by
  simp only [getChar, andThen_eq_next, getBits_eq_next, Nat.zero_mul, Nat.zero_add, writeMsg_eq_next]
  constructor
  · rintro ⟨p, ⟨h1, rfl⟩, h2, h3⟩
    exact ⟨h1, h2, h3⟩
  · rintro ⟨h1, h2, h3⟩
    exact ⟨_, ⟨h1, rfl⟩, h2, h3⟩

/-- Everything `getChars` can do: it advances k by n * BPC and writes the characters the buffer carries. -/
theorem getChars_eq_next {n i : Nat} {s t : State} (h : getChars n i s = .next t) :
    (∀ k, s.k ≤ k → k < s.k + n * s.bpc →
      bitOffset s k < s.params.pixBytes ∧ (Memory.read s.pix (bitOffset s k)).isSome = true) ∧
    (∀ j, j < n → i + j < s.params.msgDepth ∧
      Memory.read t.msg (i + j) = some (carriedField s (s.k + j * s.bpc) s.bpc)) ∧
    (∀ a, (a < i ∨ i + n ≤ a) → Memory.read t.msg a = Memory.read s.msg a) ∧
    t = { s with msg := t.msg, k := s.k + n * s.bpc } := by
  induction n generalizing s i with
  | zero =>
    cases h
    exact ⟨fun k h1 h2 => by omega, fun j hj => by omega, fun _ _ => rfl, by simp⟩
  | succ n ih =>
    simp only [getChars, andThen_eq_next, getChar_eq_next] at h
    obtain ⟨s', ⟨hr, hd, rfl⟩, h2⟩ := h
    obtain ⟨h3, h4, h5, h6⟩ := ih h2
    simp only at h3 h4 h5 h6
    have hk : s.k + s.bpc + n * s.bpc = s.k + (n + 1) * s.bpc := by ring
    refine ⟨?_, ?_, ?_, ?_⟩
    · intro k h7 h8
      by_cases hk' : k < s.k + s.bpc
      · exact hr k h7 hk'
      · exact h3 k (by omega) (by omega)
    · intro j hj
      cases j with
      | zero =>
        refine ⟨hd, ?_⟩
        rw [h5 _ (Or.inl (by omega))]
        simp
      | succ j =>
        obtain ⟨h7, h8⟩ := h4 j (by omega)
        rw [show i + 1 + j = i + (j + 1) by omega] at h7 h8
        refine ⟨h7, ?_⟩
        rw [h8]
        congr 1
        refine carriedField_congr _ _ _ fun x _ => ?_
        change carriedBit s _ = carriedBit s _
        congr 1
        ring
    · intro a ha
      rw [h5 a (by omega), Memory.read_write_ne _ _ (by omega)]
    · rw [h6, hk]

/-- `getChars` completes when the bytes and elements it needs are ready. -/
theorem getChars_complete {n i : Nat} {s : State} (hm : i + n ≤ s.params.msgDepth)
    (h : ∀ k, s.k ≤ k → k < s.k + n * s.bpc →
      bitOffset s k < s.params.pixBytes ∧ (Memory.read s.pix (bitOffset s k)).isSome = true) :
    ∃ t, getChars n i s = .next t := by
  induction n generalizing s i with
  | zero => exact ⟨s, rfl⟩
  | succ n ih =>
    have hk : s.k + s.bpc + n * s.bpc = s.k + (n + 1) * s.bpc := by ring
    have h1 := (getChar_eq_next (i := i) (s := s)).2 ⟨fun k h1 h2 => h k h1 (by rw [← hk]; omega), by omega, rfl⟩
    simp only [getChars, h1, andThen_next]
    apply ih
    · simp only; omega
    · intro k h3 h4
      exact h k (by simp only at h3; omega) (by rw [← hk]; exact h4)

/-! What a reset in the middle of an operation can find written (R152) -/

/-- Everything `putReachable` can do: it advances k by n; of the bytes of the next n bit indices it stamps those that
exist and hold a value with their stream bits, and it leaves every other byte. -/
theorem putReachable_spec {n : Nat} {s : State} (hc : 1 ≤ s.channels) (hs : s.channels ≤ s.stride) :
    putReachable n s = { s with pix := (putReachable n s).pix, k := s.k + n } ∧
      (∀ k, s.k ≤ k → k < s.k + n → ∀ old, bitOffset s k < s.params.pixBytes →
        Memory.read s.pix (bitOffset s k) = some old →
        Memory.read (putReachable n s).pix (bitOffset s k) = some (overwriteLsb old (streamBit s k))) ∧
      (∀ a, (∀ k, s.k ≤ k → k < s.k + n → a = bitOffset s k →
          ¬ (bitOffset s k < s.params.pixBytes ∧ (Memory.read s.pix (bitOffset s k)).isSome = true)) →
        Memory.read (putReachable n s).pix a = Memory.read s.pix a) := by
  induction n generalizing s with
  | zero => exact ⟨rfl, fun k h1 h2 => absurd h2 (by omega), fun _ _ => rfl⟩
  | succ n ih =>
    have hk : s.k + 1 + n = s.k + (n + 1) := by omega
    by_cases hr : bitOffset s s.k < s.params.pixBytes ∧ (Memory.read s.pix (bitOffset s s.k)).isSome = true
    · obtain ⟨hb, hr⟩ := hr
      obtain ⟨old, ho⟩ := Option.isSome_iff_exists.1 hr
      have hp : putBit (streamBit s s.k) s = .next _ := putBit_eq_next.2 ⟨old, hb, ho, rfl⟩
      simp only [putReachable, hp, ifNext]
      obtain ⟨h1, h2, h3⟩ := ih (s := { s with pix := _, k := s.k + 1 }) hc hs
      have hne : ∀ k, s.k + 1 ≤ k → bitOffset s k ≠ bitOffset s s.k := fun k hk e => by
        have := bitOffset_injective hc hs e
        omega
      refine ⟨by rw [h1]; simp only [hk], ?_, ?_⟩
      · intro k h4 h5 o h6 h7
        by_cases hks : k = s.k
        · subst hks
          rw [ho] at h7
          cases h7
          refine (h3 _ fun k' h8 _ e => absurd e.symm (hne k' h8)).trans ?_
          simp only [Memory.read_write_same]
        · exact h2 k (by simp only; omega) (by simp only; omega) o h6
            ((Memory.read_write_ne _ _ (hne k (by omega))).trans h7)
      · intro a ha
        have hne' : a ≠ bitOffset s s.k := fun e => ha s.k (by omega) (by omega) e ⟨hb, hr⟩
        refine (h3 a fun k h4 h5 e h6 => ?_).trans (Memory.read_write_ne _ _ hne')
        simp only at h4 h5
        refine ha k (by omega) (by omega) e ⟨h6.1, ?_⟩
        have h7 : (Memory.read (Memory.write s.pix _ _) (bitOffset s k)).isSome = true := h6.2
        rwa [Memory.read_write_ne _ _ (hne k h4)] at h7
    · have hp : putReachable (n + 1) s = putReachable n (advance s) := by
        cases hq : putBit (streamBit s s.k) s with
        | next s' =>
          obtain ⟨old, hb, ho, -⟩ := putBit_eq_next.1 hq
          exact absurd ⟨hb, by rw [ho]; rfl⟩ hr
        | fault r => simp only [putReachable, hq, ifNext]
        | refused r => simp only [putReachable, hq, ifNext]
      rw [hp]
      obtain ⟨h1, h2, h3⟩ := ih (s := advance s) hc hs
      refine ⟨by rw [h1]; simp only [advance, hk], ?_, ?_⟩
      · intro k h4 h5 o h6 h7
        by_cases hks : k = s.k
        · subst hks
          exact absurd ⟨h6, by rw [h7]; rfl⟩ hr
        · exact h2 k (by simp only [advance_k]; omega) (by simp only [advance_k]; omega) o h6 h7
      · intro a ha
        refine h3 a fun k h4 h5 e => ?_
        simp only [advance_k] at h4 h5
        exact ha k (by omega) (by omega) e

/-- A canonical form of PIX inside its window outlives `putReachable`. -/
theorem putReachable_pix {n : Nat} {s : State} (h1 : Memory.wf s.pix = true)
    (h2 : Memory.every (fun a _ => decide (a < s.params.pixBytes)) s.pix = true) :
    Memory.wf (putReachable n s).pix = true ∧
      Memory.every (fun a _ => decide (a < s.params.pixBytes)) (putReachable n s).pix = true := by
  induction n generalizing s with
  | zero => exact ⟨h1, h2⟩
  | succ n ih =>
    cases hp : putBit (streamBit s s.k) s with
    | next s' =>
      obtain ⟨old, hb, -, rfl⟩ := putBit_eq_next.1 hp
      simp only [putReachable, hp, ifNext]
      exact ih (Memory.write_wf _ _ _ h1) (Memory.write_every _ _ _ _ (by simpa using hb) h2)
    | fault r => simp only [putReachable, hp, ifNext]; exact ih (s := advance s) h1 h2
    | refused r => simp only [putReachable, hp, ifNext]; exact ih (s := advance s) h1 h2

/-- One element of `getReachable`: it keeps its content or, where it exists, takes the character the buffer carries. -/
theorem getCharReachable_spec (i : Nat) (s : State) :
    ∃ m, ifNext (getChar i s) { s with k := s.k + s.bpc } (fun s' => s') = { s with msg := m, k := s.k + s.bpc } ∧
      ∀ x, Memory.read m x = Memory.read s.msg x ∨
        (x = i ∧ i < s.params.msgDepth ∧ Memory.read m x = some (carriedField s s.k s.bpc)) := by
  cases hg : getChar i s with
  | next s' =>
    obtain ⟨-, hd, rfl⟩ := getChar_eq_next.1 hg
    refine ⟨_, rfl, fun x => ?_⟩
    by_cases hx : x = i
    · subst hx
      exact Or.inr ⟨rfl, hd, Memory.read_write_same _ _ _⟩
    · exact Or.inl (Memory.read_write_ne _ _ hx)
  | fault r => exact ⟨s.msg, rfl, fun x => Or.inl rfl⟩
  | refused r => exact ⟨s.msg, rfl, fun x => Or.inl rfl⟩

/-- Everything `getReachable` can do: each of the n elements from i on, where it exists, keeps its content or takes the
character the buffer carries; only MSG and k change. -/
theorem getReachable_spec (n i : Nat) (s : State) :
    getReachable n i s = { s with msg := (getReachable n i s).msg, k := s.k + n * s.bpc } ∧
      ∀ x, Memory.read (getReachable n i s).msg x = Memory.read s.msg x ∨
        ∃ j, j < n ∧ x = i + j ∧ x < s.params.msgDepth ∧
          Memory.read (getReachable n i s).msg x = some (carriedField s (s.k + j * s.bpc) s.bpc) := by
  induction n generalizing s i with
  | zero => exact ⟨by simp [getReachable], fun x => Or.inl rfl⟩
  | succ n ih =>
    obtain ⟨m, h1, h2⟩ := getCharReachable_spec i s
    obtain ⟨h3, h4⟩ := ih (i + 1) { s with msg := m, k := s.k + s.bpc }
    have hk : s.k + s.bpc + n * s.bpc = s.k + (n + 1) * s.bpc := by ring
    rw [getReachable, ifNext_apply, h1]
    refine ⟨by rw [h3]; simp only [hk], fun x => ?_⟩
    rcases h4 x with h5 | ⟨j, h5, h6, h7, h8⟩
    · rcases h2 x with h9 | ⟨rfl, h9, h10⟩
      · exact Or.inl (h5.trans h9)
      · exact Or.inr ⟨0, by omega, rfl, h9, h5.trans (by simpa using h10)⟩
    · refine Or.inr ⟨j + 1, by omega, by omega, h7, h8.trans (congrArg some (carriedField_congr _ _ _ fun y _ => ?_))⟩
      change carriedBit s _ = carriedBit s _
      congr 1
      ring

/-- A canonical form of MSG inside its window, every element below `bound`, outlives `getReachable`. -/
theorem getReachable_msg {n i bound : Nat} {s : State} (hb : 2 ^ s.bpc ≤ bound) (h1 : Memory.wf s.msg = true)
    (h2 : Memory.every (fun j v => decide (j < s.params.msgDepth) && decide (v < bound)) s.msg = true) :
    Memory.wf (getReachable n i s).msg = true ∧
      Memory.every (fun j v => decide (j < s.params.msgDepth) && decide (v < bound)) (getReachable n i s).msg = true := by
  induction n generalizing s i with
  | zero => exact ⟨h1, h2⟩
  | succ n ih =>
    cases hg : getChar i s with
    | next s' =>
      obtain ⟨-, hd, rfl⟩ := getChar_eq_next.1 hg
      simp only [getReachable, hg, ifNext]
      refine ih (s := { s with msg := _, k := s.k + s.bpc }) hb (Memory.write_wf _ _ _ h1) (Memory.write_every _ _ _ _ ?_ h2)
      have := (carriedField_lt s s.k s.bpc).trans_le hb
      simp only [hd, this, decide_true, Bool.and_self]
    | fault r => simp only [getReachable, hg, ifNext]; exact ih (s := { s with k := s.k + s.bpc }) hb h1 h2
    | refused r => simp only [getReachable, hg, ifNext]; exact ih (s := { s with k := s.k + s.bpc }) hb h1 h2

/-- Where nothing stops, `getReachable` is `getChars`. -/
theorem getReachable_of_getChars {n i : Nat} {s t : State} (h : getChars n i s = .next t) : getReachable n i s = t := by
  induction n generalizing s i with
  | zero => cases h; rfl
  | succ n ih =>
    simp only [getChars, andThen_eq_next] at h
    obtain ⟨s', h1, h2⟩ := h
    simpa only [getReachable, h1, ifNext] using ih h2

/-- The targets of ENCODE: none, or the bits of the stream of a valid, fitting message. -/
theorem encodeTargets_cases (s : State) :
    encodeTargets s = s ∨
    (cfgCodecOk s = true ∧ messageValid s s.msglen 0 = .next true ∧ messageTooLarge s = false ∧
      encodeTargets s = putReachable (requiredBits s) (startCounter s)) := by
  unfold encodeTargets
  split
  · next hc =>
    cases hv : messageValid s s.msglen 0 with
    | next v =>
      cases v with
      | false => exact Or.inl rfl
      | true =>
        by_cases hl : messageTooLarge s = true
        · exact Or.inl (by simp only [ifNext, if_true, hl])
        · exact Or.inr ⟨hc, rfl, by simpa using hl, by simp only [ifNext, if_true, hl]; rfl⟩
    | fault r => exact Or.inl rfl
    | refused r => exact Or.inl rfl
  · exact Or.inl rfl

/-! The operations (R81, R90, R110): the cases in which they answer a next state -/

theorem execLocate_cases {s t : State} (h : execLocate s = .next t) :
    (cfgLocateOk s = true ∧ t = complete okCode { s with
        locCh := (s.bitidx % s.channels)
        locCol := (s.bitidx / s.channels % s.width)
        locRow := (s.bitidx / (s.width * s.channels)) }) ∨
    (cfgLocateOk s = false ∧ t = complete ErrorKind.badConfig.code s) := by
  unfold execLocate at h
  split at h
  · next hc => exact Or.inl ⟨hc, succeed_eq_next.1 h⟩
  · next hc => exact Or.inr ⟨by simpa using hc, raise_eq_next.1 h⟩

theorem execEncode_cases {s t : State} (h : execEncode s = .next t) :
    (cfgCodecOk s = false ∧ t = complete ErrorKind.badConfig.code s) ∨
    (cfgCodecOk s = true ∧ messageValid s s.msglen 0 = .next false ∧ t = complete ErrorKind.invalidMessage.code s) ∨
    (cfgCodecOk s = true ∧ messageValid s s.msglen 0 = .next true ∧ messageTooLarge s = true ∧
      t = complete ErrorKind.messageTooLarge.code s) ∨
    (cfgCodecOk s = true ∧ messageValid s s.msglen 0 = .next true ∧ messageTooLarge s = false ∧
      emitStream s = .next t) := by
  unfold execEncode at h
  split at h
  · next hc =>
    obtain ⟨v, h1, h2⟩ := andThen_eq_next.1 h
    cases v with
    | false => exact Or.inr (Or.inl ⟨hc, h1, raise_eq_next.1 h2⟩)
    | true =>
      simp only [if_true] at h2
      split at h2
      · next hl => exact Or.inr (Or.inr (Or.inl ⟨hc, h1, hl, raise_eq_next.1 h2⟩))
      · next hl => exact Or.inr (Or.inr (Or.inr ⟨hc, h1, by simpa using hl, h2⟩))
  · next hc => exact Or.inl ⟨by simpa using hc, raise_eq_next.1 h⟩

/-- The header that DECODE reads is `carriedLength`. -/
theorem readHeader_eq_next {s : State} {p : Nat × State} :
    getBits s.hdrbits 0 (startCounter s) = .next p ↔
      BitsReady s s.hdrbits ∧ p = (carriedLength s, { s with k := s.hdrbits }) := by
  rw [getBits_eq_next]
  simp only [startCounter_k, Nat.zero_add, Nat.zero_mul]
  have hc : carriedField (startCounter s) 0 s.hdrbits = carriedLength s := carriedField_congr _ _ _ fun _ _ => rfl
  rw [hc]
  exact ⟨fun h => ⟨fun k hk => h.1 k (Nat.zero_le _) hk, h.2⟩, fun h => ⟨fun k _ hk => h.1 k hk, h.2⟩⟩

theorem execDecode_cases {s t : State} (h : execDecode s = .next t) :
    (cfgCodecOk s = false ∧ t = complete ErrorKind.badConfig.code s) ∨
    (cfgCodecOk s = true ∧ capacity s < s.hdrbits ∧ t = complete ErrorKind.imageTooSmall.code s) ∨
    (cfgCodecOk s = true ∧ s.hdrbits ≤ capacity s ∧ BitsReady s s.hdrbits ∧
      payloadTruncated s (carriedLength s) = true ∧ t = complete ErrorKind.truncatedPayload.code s) ∨
    (cfgCodecOk s = true ∧ s.hdrbits ≤ capacity s ∧ BitsReady s s.hdrbits ∧
      payloadTruncated s (carriedLength s) = false ∧
      ∃ s', getChars (carriedLength s) 0 { s with k := s.hdrbits } = .next s' ∧
        t = complete okCode { s' with msglen := (carriedLength s) }) := by
  unfold execDecode at h
  split at h
  · next hc =>
    split at h
    · next hi => exact Or.inr (Or.inl ⟨hc, hi, raise_eq_next.1 h⟩)
    · next hi =>
      obtain ⟨p, h1, h2⟩ := andThen_eq_next.1 h
      obtain ⟨hr, rfl⟩ := readHeader_eq_next.1 h1
      simp only at h2
      split at h2
      · next ht => exact Or.inr (Or.inr (Or.inl ⟨hc, by omega, hr, ht, raise_eq_next.1 h2⟩))
      · next ht =>
        obtain ⟨s', h3, h4⟩ := andThen_eq_next.1 h2
        exact Or.inr (Or.inr (Or.inr ⟨hc, by omega, hr, by simpa using ht, s', h3, succeed_eq_next.1 h4⟩))
  · next hc => exact Or.inl ⟨by simpa using hc, raise_eq_next.1 h⟩

/-- The targets of DECODE: none, or the characters of a stream that fits. -/
theorem decodeTargets_cases (s : State) :
    decodeTargets s = s ∨
    (cfgCodecOk s = true ∧ s.hdrbits ≤ capacity s ∧ BitsReady s s.hdrbits ∧ payloadTruncated s (carriedLength s) = false ∧
      decodeTargets s = getReachable (carriedLength s) 0 { s with k := s.hdrbits }) := by
  unfold decodeTargets
  split
  · next hc =>
    split
    · exact Or.inl rfl
    · next hi =>
      cases hg : getBits s.hdrbits 0 (startCounter s) with
      | next p =>
        obtain ⟨hr, rfl⟩ := readHeader_eq_next.1 hg
        by_cases ht : payloadTruncated s (carriedLength s) = true
        · exact Or.inl (by simp only [ifNext, ht, if_true])
        · exact Or.inr ⟨hc, by omega, hr, by simpa using ht, by simp only [ifNext, ht]; rfl⟩
      | fault r => exact Or.inl rfl
      | refused r => exact Or.inl rfl
  · exact Or.inl rfl

end Sys2Proof.Machine
end

