-- ==== Sys2Proof/Laws/PerInstr.lean ====
section
/-! SUPPORT. What holds of every instruction as syntax, one lemma per constructor. -/

namespace Sys2Proof

/-- The encoding of an instruction is legal (R60): its ZERO field is 0 and its OP is the instruction's own. -/
def Laws.Encoding.Statement (i : Instr) : Prop :=
  i.wellFormed = true ∧ (cmdFields (encodeWord i)).wellFormed = true ∧ (cmdFields (encodeWord i)).op = instrOp i

theorem Laws.Encoding.locate : Laws.Encoding.Statement .locate := by unfold Laws.Encoding.Statement; decide

theorem Laws.Encoding.encode : Laws.Encoding.Statement .encode := by unfold Laws.Encoding.Statement; decide

theorem Laws.Encoding.decode : Laws.Encoding.Statement .decode := by unfold Laws.Encoding.Statement; decide

end Sys2Proof
end

