-- ==== Sys2Proof/Tests/Slice0.lean ====
section
/-! SUPPORT. The model's own tests. Expected results come from spec/95_test_vectors.md and the worked examples of the
rules; the witnesses show that the statements' hypotheses can be met. -/

namespace Sys2Proof.Tests

open Sys2Proof Sys2Proof.Machine

/-! Helpers -/

/-- The outcome is a next state that passes the test. -/
def after (o : Result State) (p : State → Bool) : Bool :=
  match o with
  | .next t => p t
  | .fault _ => false
  | .refused _ => false

theorem exists_of_after {o : Result State} {p : State → Bool} (h : after o p = true) : ∃ t, o = .next t ∧ p t = true := by
  cases o with
  | next t => exact ⟨t, rfl, h⟩
  | fault r => cases h
  | refused r => cases h

/-- What remains of an outcome; the given state where there is none. -/
def stateOf (o : Result State) (s : State) : State :=
  match o with
  | .next t => t
  | .fault _ => s
  | .refused _ => s

/-- A memory that holds the listed contents from address `a` on. -/
def loaded {β : Type} (a : Nat) : List β → List (Nat × β)
  | [] => []
  | v :: vs => (a, v) :: loaded (a + 1) vs

/-- The default parameters (R6) with memories of the given sizes. -/
def platform (pixBytes msgDepth : Nat) : Params :=
  { xlen := 32, hbMax := 32, cpw := 32, pixBytes := pixBytes, msgDepth := msgDepth }

/-- A configured machine (WIDTH, HEIGHT, CHANNELS, STRIDE, BPC, HDRBITS) with a message in a MSG of the given depth and
a loaded buffer. -/
def machine (depth w h c s b hb : Nat) (text : List Nat) (bytes : List Byte) : State :=
  { State.resetOn (platform bytes.length depth) with
    width := w, height := h, channels := c, stride := s, bpc := b, hdrbits := hb
    msglen := text.length, msg := loaded 0 text, pix := loaded 0 bytes }

/-- V-E12 and P4: a 2 x 3 image of RGBA pixels, `10 21 32 FF` six times, and the message 72, 105. -/
def rgba : List Byte :=
  [0x10, 0x21, 0x32, 0xFF, 0x10, 0x21, 0x32, 0xFF, 0x10, 0x21, 0x32, 0xFF,
   0x10, 0x21, 0x32, 0xFF, 0x10, 0x21, 0x32, 0xFF, 0x10, 0x21, 0x32, 0xFF]

/-- PIX after V-E12. -/
def rgbaAfter : List Byte :=
  [0x10, 0x20, 0x33, 0xFF, 0x10, 0x21, 0x32, 0xFF, 0x10, 0x21, 0x32, 0xFF,
   0x10, 0x20, 0x33, 0xFF, 0x11, 0x20, 0x33, 0xFF, 0x10, 0x20, 0x33, 0xFF]

/-- The machine before V-E12: need = 4 + 14 = 18 = cap, and CHANNELS < STRIDE. -/
def vE12 : State := machine 3 2 3 3 4 7 4 [72, 105] rgba

/-- The machine before the DECODE that inverts V-E12 (V-D3), its message wiped. -/
def vD12 : State := machine 3 2 3 3 4 7 4 [] rgbaAfter

/-- S1, V-E1: 2 x 2 x 3 zero bytes, HDRBITS 8, the message 65: 16 bits needed, 12 there. -/
def vE1 : State := machine 4 2 2 3 3 8 8 [65] (List.replicate 12 0)

/-! Decoding: words written out bit by bit from R60 and R61 -/

theorem test_decode_locate : decodeWord 0b00000000000000000000000000000001#32 = .ok .locate := by decide
theorem test_decode_encode : decodeWord 0b00000000000000000000000000000010#32 = .ok .encode := by decide
theorem test_decode_decode : decodeWord 0b00000000000000000000000000000011#32 = .ok .decode := by decide
theorem test_decode_zero : decodeWord 0b00000000000000000000000000000000#32 = .error .noOperation := by decide
theorem test_decode_bit_2 : decodeWord 0b00000000000000000000000000000101#32 = .error .zeroFieldSet := by decide
theorem test_decode_bit_31 : decodeWord 0b10000000000000000000000000000001#32 = .error .zeroFieldSet := by decide

theorem test_decode_too_long : decodeValue 0x100000002 = .error .tooLong := by decide

theorem test_table_words :
    decodeTableWord 32 1 = some .locate ∧ decodeTableWord 32 2 = some .encode ∧ decodeTableWord 32 3 = some .decode ∧
      decodeTableWord 32 0 = none ∧ decodeTableWord 32 5 = none := by decide

/-! Well-formedness: one ill-formed term for each check -/

theorem test_wf_zero_field : CmdFields.wellFormed { zero := 1, op := 1 } = false := by decide
theorem test_wf_op : CmdFields.wellFormed { zero := 0, op := 0 } = false := by decide
theorem test_wf_byte_access : Transaction.wellFormed (platform 24 3) (.regWrite 0x08 .byte 0) = false := by decide
theorem test_wf_half_access : Transaction.wellFormed (platform 24 3) (.regRead 0x08 .half) = false := by decide
theorem test_wf_unaligned_write : Transaction.wellFormed (platform 24 3) (.regWrite 0x0A .word 0) = false := by decide
theorem test_wf_unaligned_read : Transaction.wellFormed (platform 24 3) (.regRead 0x09 .word) = false := by decide
theorem test_wf_wide_register : Transaction.wellFormed (platform 24 3) (.regWrite 0x08 .word 0x100000000) = false := by decide
theorem test_wf_wide_element : Transaction.wellFormed (platform 24 3) (.msgWrite 0 0x100000000) = false := by decide
theorem test_wf_accepts :
    (∀ i : Instr, i.wellFormed = true) ∧ Transaction.wellFormed (platform 24 3) (.regWrite 0x30 .word 0) = true := by
  refine ⟨fun i => ?_, by decide⟩
  cases i <;> rfl

/-! The three operations, one step each -/

/-- R81's worked example: WIDTH = 2, CHANNELS = 3, BITIDX = 7; HEIGHT, STRIDE, BPC, HDRBITS 0 as in V-L15. -/
theorem test_locate_worked_example :
    after (step ({ State.resetOn (platform 0 0) with width := 2, channels := 3, bitidx := 7, hdrbits := 0 }.withFetchWord 32 1))
      (fun t => t.locCh == 1 && t.locCol == 0 && t.locRow == 1 && t.status == 0) = true := by decide

/-- V-L11: the largest BITIDX. -/
theorem test_locate_largest_index :
    after (exec .locate { State.resetOn (platform 0 0) with width := 65535, channels := 4, bitidx := 4294967295 })
      (fun t => t.locCh == 3 && t.locCol == 16383 && t.locRow == 16384 && t.status == 0) = true := by decide

/-- R83 for XLEN = 8: the same index arithmetic on a block of another register width. -/
theorem test_locate_narrow_block :
    after (exec .locate { State.resetOn { platform 0 0 with xlen := 8, hbMax := 8 } with width := 2, channels := 3, bitidx := 255 })
      (fun t => t.locCh == 0 && t.locCol == 1 && t.locRow == 42 && t.status == 0) = true := by decide

/-- R29, R33 with HB_MAX = 8: a header of 9 bits is BadConfig. -/
theorem test_encode_header_limit :
    after (exec .encode { vE12 with params := { vE12.params with hbMax := 8 }, hdrbits := 9 }) (fun t => t.status == 5) = true := by
  decide

/-- V-E12: every byte of PIX after it; every fourth byte is untouched. -/
theorem test_encode_skips_alpha :
    after (step (vE12.withFetchWord 32 2)) (fun t => t.pix == loaded 0 rgbaAfter && t.status == 0 && t.k == 18) = true := by
  decide

/-- S1, V-E1: MessageTooLarge, PIX unchanged. -/
theorem test_encode_too_large : after (exec .encode vE1) (fun t => t.pix == vE1.pix && t.status == 2) = true := by decide

/-- V-D3 for V-E12: MSGLEN = 2, MSG = 72, 105. -/
theorem test_decode_skips_alpha :
    after (step (vD12.withFetchWord 32 3)) (fun t => t.msg == [(0, 72), (1, 105)] && t.msglen == 2 && t.status == 0) = true := by
  decide

/-- V-D5: cap = HDRBITS and a header of 1: TruncatedPayload, MSGLEN unchanged. -/
theorem test_decode_truncated :
    after (exec .decode (machine 4 2 2 2 2 8 8 [9] [0x10, 0x10, 0x10, 0x10, 0x10, 0x10, 0x10, 0x11]))
      (fun t => t.msglen == 1 && t.msg == [(0, 9)] && t.status == 4) = true := by decide

/-! The host's side, one step each -/

/-- 95_test_vectors.md 2.6: `WR CMD, 2` straight after reset gives BadConfig. -/
theorem test_reset_then_encode : after (step (State.reset.withFetchWord 32 2)) (fun t => t.status == 5) = true := by decide

/-- 95_test_vectors.md 2.5: 0x00000005 is BadCommand. -/
theorem test_bad_command : after (step (vE12.withFetchWord 32 5)) (fun t => t.status == 6 && t.pix == vE12.pix) = true := by
  decide

/-- R72: `MSGSTR "Hi"`. -/
theorem test_msgstr :
    Script.msgStr "Hi" = [.access (.msgWrite 0 72), .access (.msgWrite 1 105), .access (.regWrite 0x20 .word 2)] := by decide

/-- R71: the encoding `REG W 0x00 0x00000002` of `ENCODE`. -/
theorem test_script_encoding : Script.encode = .access (.regWrite 0x00 .word 2) ∧
    transactionTuple (.regWrite 0x00 .word 2) = (.reg, true, 0x00, some 2) := by decide

/-! Witnesses: the statements' hypotheses can be met -/

theorem witness_StepRunsDecodedInstruction :
    (vE12.withFetchWord 32 2).script = .access (.regWrite 0x00 .word 2) :: [] ∧ 2 < 2 ^ vE12.params.xlen ∧ decodeValue 2 = .ok .encode ∧
      2 ≤ vE12.params.xlen := by decide

theorem witness_IllegalCommandRaisesBadCommand :
    (vE12.withFetchWord 32 0).script = .access (.regWrite 0x00 .word 0) :: [] ∧ 0 < 2 ^ vE12.params.xlen ∧
      (0 : Nat) ≠ 1 ∧ (0 : Nat) ≠ 2 ∧ (0 : Nat) ≠ 3 := by
  decide

theorem witness_IdleEngineChangesNothing : vE12.script = [] := by decide

theorem witness_LocateComputesTriple :
    (1 ≤ vE12.width ∧ 1 ≤ vE12.channels) ∧ ({ vE12 with width := 0 } : State).width = 0 ∧
      ({ vE12 with channels := 0 } : State).channels = 0 ∧
      vE12.bitidx < 2 ^ 32 ∧ vE12.width < 2 ^ 32 ∧ vE12.channels < 2 ^ 32 := by decide

/-- The boundary row < h: index 11 of a 2 x 2 x 3 buffer is inside, 12 is not. -/
theorem witness_LocateResultRanges :
    1 ≤ 2 ∧ 1 ≤ 3 ∧ (locate 11 2 3).row < 2 ∧ ¬ (locate 12 2 3).row < 2 ∧ 12 < 2 ^ 32 := by decide

theorem witness_LocateReconstruction :
    1 ≤ 2 ∧ 1 ≤ 3 ∧ 1 ≤ vE1.width ∧ 1 ≤ vE1.channels ∧ vE1.stride = vE1.channels := by decide

theorem witness_LocateIsBijective :
    1 ≤ 2 ∧ 1 ≤ 3 ∧ locate 7 2 3 = locate 7 2 3 ∧ 11 < 2 * 2 * 3 ∧ 2 < 3 ∧ 1 < 2 := by decide

/-- One index for each branch: next channel, next column, next row. -/
theorem witness_LocateRasterOrder :
    1 ≤ 2 ∧ 1 ≤ 3 ∧ (locate 0 2 3).channel + 1 < 3 ∧
      ¬ (locate 2 2 3).channel + 1 < 3 ∧ (locate 2 2 3).col + 1 < 2 ∧
      ¬ (locate 5 2 3).channel + 1 < 3 ∧ ¬ (locate 5 2 3).col + 1 < 2 := by decide

/-- The last used byte, k = 17, of V-E12's buffer is at offset 22. -/
theorem witness_PutStoresOneBit :
    22 = ((locate 17 2 3).row * 2 + (locate 17 2 3).col) * 4 + (locate 17 2 3).channel ∧ 22 < vE12.params.pixBytes ∧
      Memory.read vE12.pix 22 = some 0x32 := by decide

theorem witness_GetReadsOneBit :
    22 = ((locate 17 2 3).row * 2 + (locate 17 2 3).col) * 4 + (locate 17 2 3).channel ∧ 22 < vD12.params.pixBytes ∧
      Memory.read vD12.pix 22 = some 0x33 := by decide

theorem witness_EncodeWritesStream :
    cfgCodecOk vE12 = true ∧ MessageReady vE12 vE12.msglen ∧ MessageRepresentable vE12 vE12.msglen ∧
      MessageFits vE12 ∧ BitsReady vE12 (requiredBits vE12) := by decide

/-- A successful ENCODE; offset 3 is an unused channel, offset 24 beyond the buffer; for EncodeNonInterference,
EncodeLeavesRegisters, EncodeIsIdempotent, RoundTrip, CodecNeedsReadyMemory. -/
theorem witness_encode_succeeds :
    (∃ t, exec .encode vE12 = .next t ∧ (t.status == 0) = true) ∧ vE12.channels ≤ 3 ∧ 3 < vE12.stride ∧
      vE12.width * vE12.height * vE12.stride ≤ 24 :=
  ⟨exists_of_after (by decide), by decide⟩

/-- An ENCODE past its last test, need = 18 = cap; for EncodeAllOrNothing. -/
theorem witness_encode_accepted :
    (∃ t, exec .encode vE12 = .next t ∧ (t.k == 18) = true) ∧ cfgCodecOk vE12 = true ∧
      MessageRepresentable vE12 vE12.msglen ∧ MessageFits vE12 ∧ requiredBits vE12 = capacity vE12 :=
  ⟨exists_of_after (by decide), by decide⟩

/-- A failed ENCODE; for EncodeAllOrNothing, FailureChangesOnlyStatus. -/
theorem witness_encode_fails : ∃ t, exec .encode vE1 = .next t ∧ (t.status == 2) = true :=
  exists_of_after (by decide)

theorem witness_emission : ∃ t, emitStream vE12 = .next t ∧ (t.status == 0) = true :=
  exists_of_after (by decide)

/-- The second character of the message is 128, one above the range. -/
def invalid : State := { vE12 with msg := [(0, 127), (1, 128)] }

theorem witness_InvalidMessageExactly :
    (cfgCodecOk invalid = true ∧ 1 < invalid.msglen ∧ MessageReady invalid 2 ∧ MessageRepresentable invalid 1 ∧
      2 ^ invalid.bpc ≤ codepoint invalid 1) ∧
    ∃ t, exec .encode invalid = .next t ∧ (t.status == 1) = true :=
  ⟨by decide, exists_of_after (by decide)⟩

/-- V-E7's second half: a length of 4 under a header of 2 bits; the capacity of 300 bits is not the cause. -/
def longMessage : State := machine 4 10 10 3 3 7 2 [65, 66, 67, 68] []

theorem witness_MessageTooLargeExactly :
    (cfgCodecOk vE1 = true ∧ MessageReady vE1 vE1.msglen ∧ MessageRepresentable vE1 vE1.msglen ∧
      vE1.width * vE1.height * vE1.channels < vE1.hdrbits + vE1.msglen * vE1.bpc) ∧
    (cfgCodecOk longMessage = true ∧ MessageReady longMessage longMessage.msglen ∧
      MessageRepresentable longMessage longMessage.msglen ∧
      2 ^ longMessage.hdrbits - 1 < longMessage.msglen) ∧
    ∃ t, exec .encode vE1 = .next t ∧ (t.status == 2) = true :=
  ⟨by decide, by decide, exists_of_after (by decide)⟩

theorem witness_DecodeDeliversMessage :
    cfgCodecOk vD12 = true ∧ vD12.hdrbits + carriedLength vD12 * vD12.bpc ≤ capacity vD12 ∧
      BitsReady vD12 (vD12.hdrbits + carriedLength vD12 * vD12.bpc) ∧ carriedLength vD12 ≤ vD12.params.msgDepth := by
  decide

/-- A successful DECODE of two characters; for DecodeResult, DecodeIsRepeatable, CodecNeedsReadyMemory,
ErrorCodesPerOperation, OperationsWriteOnlyTheirResults. -/
theorem witness_decode_succeeds : ∃ t, exec .decode vD12 = .next t ∧ (t.status == 0 && t.msglen == 2) = true :=
  exists_of_after (by decide)

/-- The empty message (S2): the clause of DecodeResult for length 0. -/
theorem witness_decode_empty : carriedLength (machine 4 2 2 2 2 8 8 [] (List.replicate 8 0x10)) = 0 ∧
    ∃ t, exec .decode (machine 4 2 2 2 2 8 8 [] (List.replicate 8 0x10)) = .next t ∧ (t.status == 0) = true :=
  ⟨by decide, exists_of_after (by decide)⟩

/-- V-D4: cap = 7 below HDRBITS = 8, nothing loaded; the message of one character fits no such buffer. -/
def tiny : State := machine 1 7 1 1 1 8 8 [65] []

theorem witness_ImageTooSmallExactly :
    (cfgCodecOk tiny = true ∧ tiny.width * tiny.height * tiny.channels < tiny.hdrbits ∧
      MessageReady tiny tiny.msglen ∧ MessageRepresentable tiny tiny.msglen) ∧
    ∃ t, exec .decode tiny = .next t ∧ (t.status == 3) = true :=
  ⟨by decide, exists_of_after (by decide)⟩

/-- V-D5: cap = HDRBITS, a header of 1. -/
def truncated : State := machine 4 2 2 2 2 8 8 [] [0x10, 0x10, 0x10, 0x10, 0x10, 0x10, 0x10, 0x11]

theorem witness_TruncatedPayloadExactly :
    (cfgCodecOk truncated = true ∧ truncated.hdrbits ≤ capacity truncated ∧
      BitsReady truncated truncated.hdrbits ∧
      truncated.width * truncated.height * truncated.channels
        < truncated.hdrbits + carriedLength truncated * truncated.bpc) ∧
    ∃ t, exec .decode truncated = .next t ∧ (t.status == 4) = true :=
  ⟨by decide, exists_of_after (by decide)⟩

/-- A failed DECODE, and one past its last test, at the boundary HDRBITS + len * BPC = 18 = cap. -/
theorem witness_DecodeFailureLeavesNoTrace :
    (∃ t, exec .decode truncated = .next t ∧ (t.status == 4) = true) ∧
    (∃ t, exec .decode vD12 = .next t ∧ (t.msglen == 2) = true) ∧ cfgCodecOk vD12 = true ∧
      vD12.hdrbits + carriedLength vD12 * vD12.bpc = capacity vD12 :=
  ⟨exists_of_after (by decide), exists_of_after (by decide), by decide, by decide⟩

/-- The alpha bytes cleared, every used LSB as before. -/
def otherAlpha : List Host.Cell :=
  loaded 0 [0x10, 0x20, 0x33, 0x00, 0x10, 0x21, 0x32, 0x00, 0x10, 0x21, 0x32, 0x00,
    0x10, 0x20, 0x33, 0x00, 0x11, 0x20, 0x33, 0x00, 0x10, 0x20, 0x33, 0x00]

theorem witness_DecodeSeesOnlyLsbs :
    (∀ k, k < capacity vD12 → ∀ v, Memory.read vD12.pix (bitOffset vD12 k) = some v →
      ∃ v', Memory.read otherAlpha (bitOffset vD12 k) = some v' ∧ v'.getLsbD 0 = v.getLsbD 0) ∧
    (∃ t, exec .decode vD12 = .next t ∧ (t.status == 0) = true) ∧ otherAlpha ≠ vD12.pix := by
  refine ⟨fun k hk v hv => ?_, exists_of_after (by decide), by decide⟩
  have h : ∀ k, k < capacity vD12 →
      (Memory.read otherAlpha (bitOffset vD12 k)).map (fun v => v.getLsbD 0)
        = (Memory.read vD12.pix (bitOffset vD12 k)).map (fun v => v.getLsbD 0) := by decide
  have hk' := h k hk
  rw [hv] at hk'
  exact Option.map_eq_some_iff.1 hk'

/-- WIDTH 3 instead of 2; the header and the payload fit there too. -/
theorem witness_DecodeIgnoresWidth :
    (∃ t, exec .decode vD12 = .next t ∧ (t.status == 0 && t.msglen == 2) = true) ∧ 1 ≤ 3 ∧
      vD12.hdrbits + 2 * vD12.bpc ≤ 3 * vD12.height * vD12.channels :=
  ⟨exists_of_after (by decide), by decide⟩

/-- V-E12, then DECODE on its pixels with the message wiped. -/
theorem witness_RoundTrip :
    (∃ t, exec .encode vE12 = .next t ∧ (t.status == 0 && t.pix == vD12.pix) = true) ∧ SameCodecConfig vE12 vD12 :=
  ⟨exists_of_after (by decide), ⟨by decide, by decide, by decide, by decide, by decide, by decide, by decide⟩⟩

theorem witness_ReencodeRestoresPixels :
    let u : State := { vD12 with msg := [(0, 72), (1, 105)], msglen := 2 }
    (∃ t, exec .decode vD12 = .next t ∧ (t.status == 0 && t.msg == u.msg && t.msglen == u.msglen) = true) ∧
      SameCodecConfig vD12 u ∧ u.pix = vD12.pix :=
  ⟨exists_of_after (by decide), ⟨rfl, rfl, rfl, rfl, rfl, rfl, rfl⟩, rfl⟩

/-- V-E13: each illegal register value, for ENCODE and DECODE alike; and the two of LOCATE. -/
theorem witness_BadConfigExactly :
    IllegalConfig .locate { vE12 with width := 0 } ∧ IllegalConfig .locate { vE12 with channels := 0 } ∧
    IllegalConfig .encode { vE12 with width := 0 } ∧ IllegalConfig .encode { vE12 with channels := 0 } ∧
    IllegalConfig .encode { vE12 with channels := 5 } ∧ IllegalConfig .encode { vE12 with bpc := 6 } ∧
    IllegalConfig .decode { vE12 with bpc := 9 } ∧ IllegalConfig .decode { vE12 with hdrbits := 0 } ∧
    IllegalConfig .decode { vE12 with hdrbits := 33 } ∧
    ∃ t, exec .decode { vE12 with hdrbits := 33 } = .next t ∧ (t.status == 5) = true := by
  refine ⟨?_, ?_, ?_, ?_, ?_, ?_, ?_, ?_, ?_, exists_of_after (by decide)⟩ <;> unfold IllegalConfig <;> decide

theorem witness_locate_outcomes :
    (∃ t, exec .locate vE12 = .next t ∧ (t.status == 0) = true) ∧
      ∃ t, exec .locate State.reset = .next t ∧ (t.status == 5) = true :=
  ⟨exists_of_after (by decide), exists_of_after (by decide)⟩

theorem platform_legal (m n : Nat) : (platform m n).Legal :=
  ⟨(by decide : 32 < 2 ^ 32), (by decide : 32 ≤ 32), (by decide : 8 < 32)⟩

theorem vE12_inv : vE12.Inv :=
  ⟨platform_legal _ _, fun r => by cases r <;> decide, by decide, by decide, by decide, by decide, by decide, by decide⟩

/-- For StepKeepsInvariant and ParametersNeverChange. -/
theorem witness_StepKeepsInvariant : vE12.Inv ∧ ∃ t, step vE12 = .next t ∧ (t.status == 0) = true :=
  ⟨vE12_inv, exists_of_after (by decide)⟩

theorem witness_ResetSetsRegisters : ({ vE12 with script := [.reset] } : State).script = .reset :: [] := by decide

/-- An abandoned ENCODE. -/
theorem witness_AbandonedOperationOldOrNew :
    ({ vE12 with script := [.resetDuring 2] } : State).Inv ∧ 2 < 2 ^ vE12.params.xlen ∧ decodeValue 2 = .ok .encode ∧
      ∃ t, exec .encode { vE12 with script := [] } = .next t ∧ (t.status == 0) = true :=
  ⟨⟨vE12_inv.params, vE12_inv.registers, by decide, by decide, by decide, by decide, by decide, by decide⟩, by decide, by decide,
    exists_of_after (by decide)⟩

/-- V-E12's buffer without its last used byte, offset 22: the ENCODE faults there after 17 bits. -/
def cut : State := { vE12 with pix := loaded 0 (rgba.take 22) }

/-- An abandoned ENCODE that would have met a fault; the first bit it can change is 1, at offset 1 (old 0x21, new 0x20). -/
theorem witness_AbandonedOperationAlwaysAnswers :
    ({ cut with script := [.resetDuring 2] } : State).Inv ∧ 2 < 2 ^ cut.params.xlen ∧
      exec .encode cut = .fault (.pixUnwritten 22) ∧
      Memory.read (commandTargets 2 cut).pix 1 = some 0x20 ∧ (commandTargets 2 cut).k = 18 ∧
      Memory.read (commandTargets 2 cut).pix 22 = none :=
  ⟨⟨vE12_inv.params, vE12_inv.registers, by decide, by decide, by decide, by decide, by decide, by decide⟩, by decide, rfl, by decide,
    by decide, by decide⟩

/-- The first value that does not fit, for a register and for an element. -/
theorem witness_TooWideValuesRefused :
    2 ^ vE12.params.xlen ≤ 0x100000000 ∧ 2 ^ vE12.params.cpw ≤ 0x100000000 ∧ 0x08 % 4 = 0 ∧
    ({ vE12 with script := [.access (.regWrite 0x08 .word 0x100000000)] } : State).script
      = .access (.regWrite 0x08 .word 0x100000000) :: [] ∧
    ({ vE12 with script := [.access (.msgWrite 0 0x100000000)] } : State).script = .access (.msgWrite 0 0x100000000) :: [] ∧
    ({ vE12 with script := [.resetDuring 0x100000000] } : State).script = .resetDuring 0x100000000 :: [] ∧
    ({ vE12 with script := [.shared 0x100000000 []] } : State).script = .shared 0x100000000 [] :: [] := by decide

/-- A RW register, a RO register, a read, and the first reserved aligned offset. -/
theorem witness_HostRegisterAccess :
    Reg.bitidx ∈ [Reg.width, .height, .channels, .stride, .bpc, .hdrbits, .msglen, .bitidx] ∧
    Reg.locRow ∈ [Reg.status, .locCh, .locCol, .locRow] ∧
    ({ vE12 with script := [.access (.regWrite (regOffset .bitidx) .word 7)] } : State).script
      = .access (.regWrite (regOffset .bitidx) .word 7) :: [] ∧
    ({ vE12 with script := [.access (.regRead (regOffset .cmd) .word)] } : State).script
      = .access (.regRead (regOffset .cmd) .word) :: [] ∧
    7 < 2 ^ vE12.params.xlen ∧ 0x34 % 4 = 0 ∧ 0x30 < 0x34 := by decide

theorem witness_PartialRegAccessRefused : AccessSize.half ≠ .word ∧ 0x31 % 4 ≠ 0 ∧
    ({ vE12 with script := [.access (.regWrite 0x31 .half 7)] } : State).script = .access (.regWrite 0x31 .half 7) :: [] := by
  decide

/-- The last byte inside the window, the first outside, and a byte nothing has written. -/
theorem witness_PixelMemoryAccess :
    23 < vE12.params.pixBytes ∧ Memory.read vE12.pix 23 = some 0xFF ∧ vE12.params.pixBytes ≤ 24 ∧
      Memory.read { vE12 with pix := [] }.pix 23 = none ∧
      ({ vE12 with script := [.access (.pixRead 23)] } : State).script = .access (.pixRead 23) :: [] ∧
      ({ vE12 with script := [.access (.pixWrite 23 1)] } : State).script = .access (.pixWrite 23 1) :: [] := by decide

theorem witness_MessageMemoryAccess :
    1 < vE12.params.msgDepth ∧ 1 < 2 ^ vE12.params.cpw ∧ Memory.read vE12.msg 1 = some 105 ∧ 2 < vE12.params.msgDepth ∧ Memory.read vE12.msg 2 = none ∧
      vE12.params.msgDepth ≤ 3 ∧
      ({ vE12 with script := [.access (.msgRead 1)] } : State).script = .access (.msgRead 1) :: [] ∧
      ({ vE12 with script := [.access (.msgWrite 1 1)] } : State).script = .access (.msgWrite 1 1) :: [] := by decide

/-- R154, U8: an element beyond the message (MSGLEN = 2) is not modified under an ENCODE, nor any under a LOCATE. -/
theorem test_shared_message_write :
    firstBreach vE12 2 [.msgRead 2, .msgWrite 2 0] = some (.msgWrite 2 0) ∧
      firstBreach vE12 1 [.msgRead 0, .msgWrite 0 0] = some (.msgWrite 0 0) := by decide

/-- ENCODE: the last byte of the region; DECODE: a write of that byte, a read of MSG; any operation: a write of MSG; any
command: a register. -/
theorem witness_ExclusiveAccessRefusal :
    ({ vE12 with script := [.shared 2 [.pixRead 23]] } : State).script = .shared 2 [.pixRead 23] :: [] ∧
    23 < vE12.width * vE12.height * vE12.stride ∧
    ({ vE12 with script := [.shared 3 [.pixWrite 23 0, .msgRead 0]] } : State).script
      = .shared 3 [.pixWrite 23 0, .msgRead 0] :: [] ∧
    Transaction.pixWrite 23 0 ∈ [Transaction.pixWrite 23 0, .msgRead 0] ∧
    Transaction.msgRead 0 ∈ [Transaction.pixWrite 23 0, .msgRead 0] ∧
    ({ vE12 with script := [.shared 1 [.msgWrite 2 0]] } : State).script = .shared 1 [.msgWrite 2 0] :: [] ∧
    Transaction.msgWrite 2 0 ∈ [Transaction.msgWrite 2 0] ∧
    Transaction.pixRead 23 ∈ [Transaction.pixRead 23] ∧
    Transaction.regRead 4 .word ∈ [Transaction.regRead 4 .word] := by decide

theorem witness_DecodeSharesReads :
    ({ vD12 with script := [.shared 3 ([0, 23].map .pixRead)] } : State).script = .shared 3 ([0, 23].map .pixRead) :: [] ∧
    2 ≤ vD12.params.xlen ∧
    (∀ off, off ∈ [0, 23] → off < vD12.params.pixBytes ∧ (Memory.read vD12.pix off).isSome = true) ∧
    ∃ t, exec .decode { vD12 with script := [] } = .next t ∧ (t.status == 0) = true :=
  ⟨by decide, by decide, by decide, exists_of_after (by decide)⟩

end Sys2Proof.Tests
end

section
/-! PROOFS. The bit-address calculation and the LOCATE operation (R80 to R85). -/

namespace Sys2Proof.Machine

/-! The triple (R80, R83): its components by name -/

@[simp] theorem locate_channel (n w c : Nat) : (locate n w c).channel = n % c := rfl

@[simp] theorem locate_col (n w c : Nat) : (locate n w c).col = n / c % w := rfl

@[simp] theorem locate_row (n w c : Nat) : (locate n w c).row = n / (w * c) := rfl

/-- The row and the column are quotient and remainder by `w` of the pixel's index `n / c`. -/
theorem locate_row_eq_div_div (n w c : Nat) : (locate n w c).row = n / c / w := by
  rw [locate_row, Nat.mul_comm, Nat.div_div_eq_div_mul]

theorem locate_channel_lt (n w : Nat) {c : Nat} (hc : 1 ≤ c) : (locate n w c).channel < c :=
  Nat.mod_lt _ hc

theorem locate_col_lt (n c : Nat) {w : Nat} (hw : 1 ≤ w) : (locate n w c).col < w :=
  Nat.mod_lt _ hw

theorem locate_row_le (n w c : Nat) : (locate n w c).row ≤ n :=
  Nat.div_le_self _ _

theorem locate_row_lt_iff {n w c : Nat} (hw : 1 ≤ w) (hc : 1 ≤ c) (h : Nat) :
    (locate n w c).row < h ↔ n < w * h * c := by
  rw [locate_row, Nat.div_lt_iff_lt_mul (Nat.mul_pos hw hc), Nat.mul_left_comm, ← Nat.mul_assoc]

/-- No result is wider than the widest operand (R83). -/
theorem locate_lt_of_operands_lt {n w c b : Nat} (hw : 1 ≤ w) (hc : 1 ≤ c) (hnb : n < b) (hwb : w < b)
    (hcb : c < b) : (locate n w c).channel < b ∧ (locate n w c).col < b ∧ (locate n w c).row < b :=
  ⟨(locate_channel_lt n w hc).trans hcb, (locate_col_lt n c hw).trans hwb, (locate_row_le n w c).trans_lt hnb⟩

/-! The triple and the index determine each other (R84, R85) -/

/-- It holds for `w = 0` and `c = 0` too, since `m % 0 = m`. -/
theorem locate_index (n w c : Nat) :
    (locate n w c).row * (w * c) + (locate n w c).col * c + (locate n w c).channel = n := by
  have hpixel : (locate n w c).row * w + (locate n w c).col = n / c := by
    rw [locate_row_eq_div_div, locate_col, Nat.div_add_mod']
  rw [← Nat.mul_assoc, ← Nat.add_mul, hpixel, locate_channel, Nat.div_add_mod']

theorem locate_injective {n m w c : Nat} (h : locate n w c = locate m w c) : n = m := by
  rw [← locate_index n w c, h, locate_index]

theorem locate_of_index {w c ch col : Nat} (hch : ch < c) (hcol : col < w) (row : Nat) :
    locate (row * (w * c) + col * c + ch) w c = { channel := ch, col := col, row := row } := by
  obtain ⟨hpixel, hchannel⟩ := position_div_mod (i := row * w + col) hch
  obtain ⟨hrow, hcolumn⟩ := position_div_mod (i := row) hcol
  have hindex : row * (w * c) + col * c + ch = (row * w + col) * c + ch := by
    rw [Nat.add_mul, Nat.mul_assoc]
  rw [hindex, Location.mk.injEq]
  refine ⟨hchannel, ?_, ?_⟩
  · rw [locate_col, hpixel, hcolumn]
  · rw [locate_row_eq_div_div, hpixel, hrow]

/-- A triple in range belongs to an index below the capacity: its row is the one that index has. -/
theorem index_lt_of_in_range {w c h ch col row : Nat} (hch : ch < c) (hcol : col < w) (hrow : row < h) :
    row * (w * c) + col * c + ch < w * h * c := by
  rw [← locate_row_lt_iff (by omega) (by omega), locate_of_index hch hcol]
  exact hrow

/-- Without unused channels the pixel memory is the bit stream, byte for bit (R84). -/
theorem bitOffset_of_stride_eq_channels {s : State} (h : s.stride = s.channels) (k : Nat) : bitOffset s k = k := by
  rw [bitOffset_eq, h, Nat.div_add_mod']

/-! The operation (R81): one equation for each side of its legality test -/

theorem execLocate_of_legal {s : State} (hw : 1 ≤ s.width) (hc : 1 ≤ s.channels) :
    execLocate s = .next (complete okCode { s with
      locCh := s.bitidx % s.channels
      locCol := s.bitidx / s.channels % s.width
      locRow := s.bitidx / (s.width * s.channels) }) := by
  rw [execLocate, if_pos (cfgLocateOk_iff.2 ⟨hw, hc⟩)]
  exact succeed_eq_next.2 rfl

theorem execLocate_of_illegal {s : State} (h : s.width = 0 ∨ s.channels = 0) :
    execLocate s = .next { s with status := 5 } := by
  have hbad : ¬ cfgLocateOk s = true := by
    rw [cfgLocateOk_iff]
    omega
  rw [execLocate, if_neg hbad]
  exact raise_eq_next.2 rfl

/-! The statements -/

/-- Settles O8 (R83): the ranges of the three results, each by its own lemma. -/
theorem locateResultRanges : Obligations.LocateResultRanges := by
  intro n w c hw hc
  exact ⟨locate_channel_lt n w hc, locate_col_lt n c hw, locate_row n w c, locate_row_le n w c,
    locate_row_lt_iff hw hc, fun _ => locate_lt_of_operands_lt hw hc⟩

/-- Settles O9 (R84): `locate_index`, and the closed form of the byte offset with STRIDE = CHANNELS. -/
theorem locateReconstruction : Obligations.LocateReconstruction :=
  ⟨fun n w c _ _ => (locate_index n w c).symm, fun _ n _ _ h => bitOffset_of_stride_eq_channels h n⟩

/-- Settles O10 (R85): one-to-one by `locate_index`, into the range by R83, onto it by `locate_of_index`. -/
theorem locateIsBijective : Obligations.LocateIsBijective := by
  intro w c hw hc
  refine ⟨fun _ _ => locate_injective, fun h n hn => ?_, fun h ch col row hch hcol hrow => ?_⟩
  · exact ⟨locate_channel_lt n w hc, locate_col_lt n c hw, (locate_row_lt_iff hw hc h).2 hn⟩
  · exact ⟨index_lt_of_in_range hch hcol hrow, locate_of_index hch hcol row⟩

/-- Settles O7 (R81): the word by the decoder's table, the two configurations by the operation's two equations. -/
theorem locateComputesTriple : Obligations.LocateComputesTriple := by
  refine ⟨by decide, fun s hw hc => ?_, fun s h => execLocate_of_illegal h⟩
  have hfit := fun x => locate_lt_of_operands_lt (n := s.bitidx) (b := 2 ^ x) hw hc
  exact ⟨_, execLocate_of_legal hw hc, rfl, rfl, rfl, hfit, statusWord_ok, rfl⟩

end Sys2Proof.Machine
end

section
/-! PROOFS. What ENCODE writes and leaves (R97, R98, R101), and that DECODE reads it back (R100). -/

namespace Sys2Proof.Machine

/-! The ends of ENCODE (R90, R98) -/

/-- ENCODE ends with an error and everything else as before, or it has passed all its tests and emits the stream. -/
theorem execEncode_raises_or_emits {s t : State} (h : execEncode s = .next t) :
    (∃ e : ErrorKind, t = complete e.code s) ∨
    (cfgCodecOk s = true ∧ messageValid s s.msglen 0 = .next true ∧ MessageFits s ∧ emitStream s = .next t) := by
  rcases execEncode_cases h with ⟨-, rfl⟩ | ⟨-, -, rfl⟩ | ⟨-, -, -, rfl⟩ | ⟨hcfg, hvalid, hsize, hemit⟩
  · exact Or.inl ⟨_, rfl⟩
  · exact Or.inl ⟨_, rfl⟩
  · exact Or.inl ⟨_, rfl⟩
  · exact Or.inr ⟨hcfg, hvalid, messageTooLarge_eq_false.1 hsize, hemit⟩

theorem execEncode_success {s t : State} (h : execEncode s = .next t) (hok : t.status = 0) :
    cfgCodecOk s = true ∧ messageValid s s.msglen 0 = .next true ∧ MessageFits s ∧ emitStream s = .next t := by
  rcases execEncode_raises_or_emits h with ⟨e, rfl⟩ | hemit
  · exact absurd hok (statusWord_code_ne_zero e)
  · exact hemit

/-- No error is tested once the emission has begun, whatever the configuration (R98). -/
theorem emitStream_status {s t : State} (h : emitStream s = .next t) : t.status = 0 := by
  simp only [emitStream, andThen_eq_next, succeed_eq_next] at h
  obtain ⟨_, -, _, -, rfl⟩ := h
  exact statusWord_ok

/-- An ENCODE that answers with an error has changed STATUS only. -/
theorem execEncode_failure {s t : State} (h : execEncode s = .next t) (hfail : t.status ≠ 0) :
    t = { s with status := t.status } := by
  rcases execEncode_raises_or_emits h with ⟨e, rfl⟩ | ⟨-, -, -, hemit⟩
  · rfl
  · exact absurd (emitStream_status hemit) hfail

theorem execEncode_accepts {s t : State} (h : execEncode s = .next t) (hcfg : cfgCodecOk s = true)
    (hrepr : MessageRepresentable s s.msglen) (hfits : MessageFits s) : t.status = 0 := by
  rcases execEncode_cases h with ⟨hbad, -⟩ | ⟨-, hinvalid, -⟩ | ⟨-, -, hlarge, -⟩ | ⟨-, -, -, hemit⟩
  · rw [hcfg] at hbad
    cases hbad
  · obtain ⟨m, -, hm, -, -, -, hwide⟩ := messageValid_false.1 hinvalid
    have hnarrow := hrepr m (by omega)
    omega
  · rw [messageTooLarge_eq_false.2 hfits] at hlarge
    cases hlarge
  · exact emitStream_status hemit

/-- What a successful ENCODE does: the counter and STATUS aside, it stamps the stream into PIX. -/
theorem execEncode_stamps {s t : State} (h : execEncode s = .next t) (hok : t.status = 0) :
    t = { s with pix := t.pix, k := requiredBits s, status := 0 } ∧
      Stamped s t.pix 0 (requiredBits s) (streamBit s) := by
  obtain ⟨hcfg, -, -, hemit⟩ := execEncode_success h hok
  obtain ⟨-, hc, hs, hbpc, -⟩ := cfgCodecOk_iff.1 hcfg
  exact emitStream_spec hc hs (by omega) hemit

/-- A message that was read whole lies inside the message memory (R43). -/
theorem msglen_le_msgDepth_of_valid {s : State} (h : messageValid s s.msglen 0 = .next true) :
    s.msglen ≤ s.params.msgDepth := by
  by_contra hlong
  obtain ⟨hinside, -⟩ := messageValid_true.1 h s.params.msgDepth (Nat.zero_le _) (by omega)
  exact lt_irrefl _ hinside

/-! The bytes ENCODE touches, and those it does not (R42, R97) -/

/-- No bit index lives in an unused channel. -/
theorem bitOffset_ne_unused {s : State} (hc : 1 ≤ s.channels) (hs : s.channels ≤ s.stride) {p c : Nat}
    (hunused : s.channels ≤ c) (hstride : c < s.stride) (k : Nat) : p * s.stride + c ≠ bitOffset s k := by
  intro e
  obtain ⟨-, hmod⟩ := bitOffset_div_mod hc hs k
  obtain ⟨-, hmod'⟩ := position_div_mod (i := p) hstride
  have hlt : k % s.channels < s.channels := Nat.mod_lt _ hc
  rw [← e, hmod'] at hmod
  omega

/-- Overwriting the LSB moves a byte by at most 1 (R97). -/
theorem overwriteLsb_near (old : Byte) (b : Bool) :
    overwriteLsb old b = old ∨ (overwriteLsb old b).toNat = old.toNat + 1 ∨
      old.toNat = (overwriteLsb old b).toNat + 1 := by
  decide +revert

/-! A buffer that carries the stream of a message (R66 to R70) -/

theorem streamBit_header {s : State} {k : Nat} (hk : k < s.hdrbits) :
    streamBit s k = s.msglen.testBit (s.hdrbits - 1 - k) :=
  if_pos hk

theorem streamBit_char (s : State) (i : Nat) {j : Nat} (hj : j < s.bpc) :
    streamBit s (s.hdrbits + i * s.bpc + j) = (codepoint s i).testBit (s.bpc - 1 - j) := by
  obtain ⟨hdiv, hmod⟩ := position_div_mod (i := i) hj
  rw [streamBit, if_neg (by omega), Nat.add_assoc, Nat.add_sub_cancel_left, hdiv, hmod]

/-- A bit of a character of the message is one of the first `need` bits of the stream (R14). -/
theorem char_bit_lt_requiredBits {s : State} {i j : Nat} (hi : i < s.msglen) (hj : j < s.bpc) :
    s.hdrbits + i * s.bpc + j < requiredBits s := by
  have hchar : (i + 1) * s.bpc ≤ s.msglen * s.bpc := Nat.mul_le_mul_right _ hi
  rw [Nat.succ_mul] at hchar
  rw [requiredBits]
  omega

section
variable {s u : State} (hcfg : SameCodecConfig s u)
include hcfg

theorem SameCodecConfig.bitOffset_eq (k : Nat) : bitOffset u k = bitOffset s k := by
  rw [Machine.bitOffset_eq, Machine.bitOffset_eq, hcfg.channels, hcfg.stride]

theorem SameCodecConfig.capacity_eq : capacity u = capacity s := by
  rw [capacity, capacity, hcfg.width, hcfg.height, hcfg.channels]

theorem SameCodecConfig.cfgCodecOk_eq : cfgCodecOk u = cfgCodecOk s := by
  simp only [cfgCodecOk, hcfg.width, hcfg.channels, hcfg.stride, hcfg.bpc, hcfg.hdrbits, hcfg.params]

/-- Stamped bits are carried by every buffer of the same configuration that holds the stamped pixels. -/
theorem Stamped.carriedBit_eq {lo hi k : Nat} {f : Nat → Bool} (h : Stamped s u.pix lo hi f)
    (hlo : lo ≤ k) (hhi : k < hi) : carriedBit u k = f k := by
  obtain ⟨old, -, -, hnew⟩ := h.at_bit k hlo hhi
  simp only [carriedBit, hcfg.bitOffset_eq, hnew, overwriteLsb_getLsbD, if_true]

/-- Stamped bytes are ready in every such buffer. -/
theorem Stamped.bitsReady {n : Nat} {f : Nat → Bool} (h : Stamped s u.pix 0 n f) : BitsReady u n := by
  intro k hk
  obtain ⟨old, hinside, -, hnew⟩ := h.at_bit k (Nat.zero_le k) hk
  rw [hcfg.bitOffset_eq, hcfg.params, hnew]
  exact ⟨hinside, rfl⟩

variable (hbits : ∀ k, k < requiredBits s → carriedBit u k = streamBit s k)
include hbits

/-- The header of a message whose length fits it spells that length (R94, R113). -/
theorem carriedLength_of_stream (hlen : s.msglen < 2 ^ s.hdrbits) : carriedLength u = s.msglen := by
  rw [carriedLength, hcfg.hdrbits]
  refine carriedField_eq hlen fun j hj => ?_
  rw [Nat.zero_add, hbits j (hj.trans_le (Nat.le_add_right _ _)), streamBit_header hj]

/-- The payload of a message spells each of its representable characters (R95, R115). -/
theorem carriedChar_of_stream {i : Nat} (hi : i < s.msglen) (hrepr : codepoint s i < 2 ^ s.bpc) :
    carriedChar u i = codepoint s i := by
  rw [carriedChar, hcfg.hdrbits, hcfg.bpc]
  refine carriedField_eq hrepr fun j hj => ?_
  rw [hbits _ (char_bit_lt_requiredBits hi hj), streamBit_char s i hj]

end

/-! The completion of DECODE (R110) -/

/-- DECODE succeeds, with MSGLEN and MSG as the buffer spells them, when the stream the header announces fits the
buffer, its bytes are ready and the elements exist. -/
theorem execDecode_of_ready {s : State} (hcfg : cfgCodecOk s = true)
    (hcap : s.hdrbits + carriedLength s * s.bpc ≤ capacity s)
    (hbits : BitsReady s (s.hdrbits + carriedLength s * s.bpc)) (hdepth : carriedLength s ≤ s.params.msgDepth) :
    ∃ t, execDecode s = .next t ∧
      t = { s with
        msg := t.msg, msglen := carriedLength s, k := s.hdrbits + carriedLength s * s.bpc, status := 0 } ∧
      (∀ i, i < carriedLength s → Memory.read t.msg i = some (carriedChar s i)) ∧
      (∀ i, carriedLength s ≤ i → Memory.read t.msg i = Memory.read s.msg i) := by
  have hheader : getBits s.hdrbits 0 (startCounter s) = .next (carriedLength s, { s with k := s.hdrbits }) :=
    readHeader_eq_next.2 ⟨fun k hk => hbits k (by omega), rfl⟩
  obtain ⟨s', hchars⟩ := getChars_complete (n := carriedLength s) (i := 0) (s := { s with k := s.hdrbits })
    ((Nat.zero_add _).trans_le hdepth) fun k _ hk => hbits k hk
  obtain ⟨-, hread, hframe, hs'⟩ := getChars_eq_next hchars
  have hexec : execDecode s = .next (complete okCode { s' with msglen := carriedLength s }) := by
    rw [execDecode, if_pos hcfg, if_neg (by omega), hheader, andThen_next,
      payloadTruncated_eq_false.2 hcap, if_neg Bool.false_ne_true, hchars, andThen_next]
    rfl
  refine ⟨_, hexec, ?_, fun i hi => ?_, fun i hi => ?_⟩
  · rw [hs']
    rfl
  · obtain ⟨-, hi'⟩ := hread i hi
    rw [Nat.zero_add] at hi'
    exact hi'.trans (congrArg some (carriedField_congr _ _ _ fun _ _ => rfl))
  · exact hframe i (Or.inr (by omega))

/-! The statements -/

/-- Settles O29 (R100): the pixels carry the stream, so the header spells MSGLEN and the payload each character, and
DECODE completes and delivers them. -/
theorem roundTrip : Obligations.RoundTrip := by
  intro s t u h hok hcfg hpix
  obtain ⟨hlegal, hvalid, ⟨hcap, hheader⟩, -⟩ := execEncode_success h hok
  obtain ⟨-, hst⟩ := execEncode_stamps h hok
  rw [← hpix] at hst
  have hmsg := messageValid_true.1 hvalid
  have hbits : ∀ k, k < requiredBits s → carriedBit u k = streamBit s k :=
    fun k hk => hst.carriedBit_eq hcfg (Nat.zero_le k) hk
  have hlen : carriedLength u = s.msglen :=
    carriedLength_of_stream hcfg hbits (by have := Nat.two_pow_pos s.hdrbits; omega)
  have hneed : u.hdrbits + carriedLength u * u.bpc = requiredBits s := by
    rw [hlen, hcfg.hdrbits, hcfg.bpc, requiredBits]
  obtain ⟨v, hexec, hv, hread, -⟩ := execDecode_of_ready (s := u) (hcfg.cfgCodecOk_eq.trans hlegal)
    (by rw [hneed, hcfg.capacity_eq]; exact hcap) (by rw [hneed]; exact hst.bitsReady hcfg)
    (by rw [hlen, hcfg.params]; exact msglen_le_msgDepth_of_valid hvalid)
  refine ⟨v, hexec, by rw [hv], by rw [hv]; exact hlen, fun i hi => ?_⟩
  obtain ⟨-, hsome, hrepr⟩ := hmsg i (Nat.zero_le i) (by omega)
  obtain ⟨c, hc⟩ := Option.isSome_iff_exists.1 hsome
  rw [hread i (by rw [hlen]; exact hi), carriedChar_of_stream hcfg hbits hi hrepr, hc, codepoint, hc]

/-- Settles O15 (R97): the stamped stream names the touched bytes, and the other bytes of the statement are none of
them: later bit indices by injectivity, unused channels by their remainder, bytes beyond the region by its bound. -/
theorem encodeNonInterference : Obligations.EncodeNonInterference := by
  intro s t h hok
  obtain ⟨hlegal, -, ⟨hcap, -⟩, -⟩ := execEncode_success h hok
  obtain ⟨-, hc, hs, -⟩ := cfgCodecOk_iff.1 hlegal
  obtain ⟨-, hst⟩ := execEncode_stamps h hok
  have helse : ∀ a, (∀ k, k < requiredBits s → a ≠ bitOffset s k) → Memory.read t.pix a = Memory.read s.pix a :=
    fun a ha => hst.elsewhere a fun k _ hk => ha k hk
  refine ⟨fun k hk => ?_, helse, fun k hk => helse _ fun k' hk' e => ?_,
    fun p c hunused hstride => helse _ fun k _ => bitOffset_ne_unused hc hs hunused hstride k,
    fun a ha => helse a fun k hk e => ?_⟩
  · obtain ⟨old, -, hold, hnew⟩ := hst.at_bit k (Nat.zero_le k) hk
    refine ⟨old, _, hold, hnew, fun j hj => ?_, ?_, overwriteLsb_near old _⟩
    · rw [overwriteLsb_getLsbD, if_neg (by omega)]
    · rw [overwriteLsb_getLsbD, if_pos rfl]
  · have hindex := bitOffset_injective hc hs e
    omega
  · have hregion : bitOffset s k < regionBytes s := bitOffset_lt_region hc hs (hk.trans_le hcap)
    rw [regionBytes] at hregion
    omega

/-- Settles O16 (R101): a failure changes STATUS only, a success stamps PIX and sets the counter and STATUS; neither
writes MSG. -/
theorem encodeLeavesRegisters : Obligations.EncodeLeavesRegisters := by
  intro s t h
  by_cases hok : t.status = 0
  · obtain ⟨ht, -⟩ := execEncode_stamps h hok
    exact ⟨by rw [ht], Or.inl hok, fun _ => by rw [ht]⟩
  · have ht := execEncode_failure h hok
    exact ⟨by rw [ht], Or.inr ht, fun h0 => absurd h0 hok⟩

/-- Settles O17 (R98): the failures are `raise`, the accepted message leaves none of them, and the emission ends in
`succeed`. -/
theorem encodeAllOrNothing : Obligations.EncodeAllOrNothing :=
  ⟨fun _ _ => execEncode_failure, fun _ _ => execEncode_accepts, fun _ _ => emitStream_status⟩

end Sys2Proof.Machine
end

section
/-! PROOFS. What a DECODE that answers has left unchanged, and where it can no longer fail (R118). -/

namespace Sys2Proof.Machine

/-- DECODE ends with an error and everything else as before, or its payload fits and MSG, MSGLEN, the counter and STATUS
are all it has written. -/
theorem execDecode_raises_or_delivers {s t : State} (h : execDecode s = .next t) :
    (∃ e : ErrorKind, t = complete e.code s) ∨
    (cfgCodecOk s = true ∧ s.hdrbits + carriedLength s * s.bpc ≤ capacity s ∧
      t = { s with
        msg := t.msg, msglen := carriedLength s, k := s.hdrbits + carriedLength s * s.bpc, status := 0 }) := by
  rcases execDecode_cases h with ⟨-, rfl⟩ | ⟨-, -, rfl⟩ | ⟨-, -, -, -, rfl⟩ | ⟨hcfg, -, -, hfits, s', hchars, rfl⟩
  · exact Or.inl ⟨_, rfl⟩
  · exact Or.inl ⟨_, rfl⟩
  · exact Or.inl ⟨_, rfl⟩
  · obtain ⟨-, -, -, hs'⟩ := getChars_eq_next hchars
    refine Or.inr ⟨hcfg, payloadTruncated_eq_false.1 hfits, ?_⟩
    rw [hs']
    rfl

/-- A DECODE that answers with an error has changed STATUS only. -/
theorem execDecode_failure {s t : State} (h : execDecode s = .next t) (hfail : t.status ≠ 0) :
    t = { s with status := t.status } := by
  rcases execDecode_raises_or_delivers h with ⟨e, rfl⟩ | ⟨-, -, ht⟩
  · rfl
  · rw [ht] at hfail
    exact absurd rfl hfail

/-- DECODE never writes PIX, whatever its outcome. -/
theorem execDecode_pix {s t : State} (h : execDecode s = .next t) : t.pix = s.pix := by
  rcases execDecode_raises_or_delivers h with ⟨e, rfl⟩ | ⟨-, -, ht⟩
  · rfl
  · rw [ht]

/-- A legal configuration with a header and a declared payload that fit leaves DECODE no error to raise. -/
theorem execDecode_accepts {s t : State} (h : execDecode s = .next t) (hcfg : cfgCodecOk s = true)
    (hfits : s.hdrbits + carriedLength s * s.bpc ≤ capacity s) : t.status = 0 := by
  rcases execDecode_cases h with ⟨hbad, -⟩ | ⟨-, hsmall, -⟩ | ⟨-, -, -, htrunc, -⟩ | ⟨-, -, -, -, s', -, rfl⟩
  · rw [hcfg] at hbad
    cases hbad
  · omega
  · rw [payloadTruncated_eq_false.2 hfits] at htrunc
    cases htrunc
  · exact statusWord_ok

/-! The statement -/

/-- Settles O23 (R118): a failure is a `raise`, a success writes no byte of PIX, and the tests the operation has passed
leave it only the success. -/
theorem decodeFailureLeavesNoTrace : Obligations.DecodeFailureLeavesNoTrace :=
  ⟨fun _ _ => execDecode_failure, fun _ _ => execDecode_pix, fun _ _ => execDecode_accepts⟩

end Sys2Proof.Machine
end

section
/-! PROOFS. The errors of the three operations: which condition raises which error (R131 to R138). -/

namespace Sys2Proof.Machine

/-! The tests of the operations in the words of the spec's conditions (R33, R92) -/

theorem cfgLocateOk_eq_false {s : State} : cfgLocateOk s = false ↔ IllegalConfig .locate s := by
  rw [← Bool.not_eq_true, cfgLocateOk_iff, IllegalConfig]
  omega

theorem cfgCodecOk_eq_false {s : State} : cfgCodecOk s = false ↔ IllegalConfig .encode s := by
  rw [← Bool.not_eq_true, cfgCodecOk_iff, IllegalConfig]
  omega

theorem messageValid_eq_true {s : State} :
    messageValid s s.msglen 0 = .next true ↔ MessageReady s s.msglen ∧ MessageRepresentable s s.msglen := by
  rw [messageValid_true]
  refine ⟨fun h => ⟨fun i hi => ?_, fun i hi => ?_⟩, fun ⟨hready, hrepr⟩ i _ hi => ?_⟩
  · obtain ⟨hdepth, hsome, -⟩ := h i (Nat.zero_le i) (by omega)
    exact ⟨hdepth, hsome⟩
  · obtain ⟨-, -, hnarrow⟩ := h i (Nat.zero_le i) (by omega)
    exact hnarrow
  · have hi' : i < s.msglen := by omega
    obtain ⟨hdepth, hsome⟩ := hready i hi'
    exact ⟨hdepth, hsome, hrepr i hi'⟩

theorem messageValid_eq_false {s : State} :
    messageValid s s.msglen 0 = .next false ↔
      ∃ m, m < s.msglen ∧ MessageReady s (m + 1) ∧ MessageRepresentable s m ∧ 2 ^ s.bpc ≤ codepoint s m := by
  rw [messageValid_false]
  constructor
  · rintro ⟨m, -, hm, hbefore, hdepth, hsome, hwide⟩
    refine ⟨m, by omega, fun i hi => ?_, fun i hi => ?_, hwide⟩
    · rcases Nat.lt_succ_iff_lt_or_eq.1 hi with hlt | rfl
      · obtain ⟨hdepth', hsome', -⟩ := hbefore i (Nat.zero_le i) hlt
        exact ⟨hdepth', hsome'⟩
      · exact ⟨hdepth, hsome⟩
    · obtain ⟨-, -, hnarrow⟩ := hbefore i (Nat.zero_le i) hi
      exact hnarrow
  · rintro ⟨m, hm, hready, hrepr, hwide⟩
    obtain ⟨hdepth, hsome⟩ := hready m (Nat.lt_succ_self m)
    refine ⟨m, Nat.zero_le m, by omega, fun i _ hi => ?_, hdepth, hsome, hwide⟩
    obtain ⟨hdepth', hsome'⟩ := hready i (by omega)
    exact ⟨hdepth', hsome', hrepr i hi⟩

/-- An element that is not representable has been given a value: an unwritten one counts as 0. -/
theorem read_msg_of_le_codepoint {s : State} {m : Nat} (h : 2 ^ s.bpc ≤ codepoint s m) :
    Memory.read s.msg m = some (codepoint s m) := by
  have hpos := Nat.two_pow_pos s.bpc
  cases hread : Memory.read s.msg m with
  | some v => simp only [codepoint, hread]
  | none =>
    simp only [codepoint, hread] at h
    omega

/-! The conditions of the errors (R131) -/

/-- `Raises s i e`: the operation `i`, started in `s`, meets the condition of the error `e` before that of any other.
The constructors are the rules R134, R132, R133, R135 and R138; BadCommand is not the operations' to raise (R139). -/
inductive Raises (s : State) : Instr → ErrorKind → Prop where
  | badConfig {i : Instr} (hbad : IllegalConfig i s) : Raises s i .badConfig
  | invalidMessage {m : Nat} (hcfg : cfgCodecOk s = true) (hm : m < s.msglen) (hready : MessageReady s (m + 1))
      (hrepr : MessageRepresentable s m) (hwide : 2 ^ s.bpc ≤ codepoint s m) : Raises s .encode .invalidMessage
  | messageTooLarge (hcfg : cfgCodecOk s = true) (hready : MessageReady s s.msglen)
      (hrepr : MessageRepresentable s s.msglen)
      (hlarge : capacity s < requiredBits s ∨ 2 ^ s.hdrbits - 1 < s.msglen) : Raises s .encode .messageTooLarge
  | imageTooSmall (hcfg : cfgCodecOk s = true) (hsmall : capacity s < s.hdrbits) : Raises s .decode .imageTooSmall
  | truncatedPayload (hcfg : cfgCodecOk s = true) (hcap : s.hdrbits ≤ capacity s) (hbits : BitsReady s s.hdrbits)
      (hshort : capacity s < s.hdrbits + carriedLength s * s.bpc) : Raises s .decode .truncatedPayload

theorem exec_of_illegalConfig {i : Instr} {s : State} (hbad : IllegalConfig i s) :
    exec i s = .next (complete ErrorKind.badConfig.code s) := by
  cases i with
  | locate => exact execLocate_of_illegal hbad
  | encode =>
    rw [exec, execEncode, cfgCodecOk_eq_false.2 hbad]
    rfl
  | decode =>
    rw [exec, execDecode, cfgCodecOk_eq_false.2 hbad]
    rfl

/-- The condition of an error ends the operation with that error, and STATUS is all that changes. -/
theorem exec_of_raises {i : Instr} {e : ErrorKind} {s : State} (h : Raises s i e) :
    exec i s = .next (complete e.code s) := by
  cases h with
  | badConfig hbad => exact exec_of_illegalConfig hbad
  | invalidMessage hcfg hm hready hrepr hwide =>
    rw [exec, execEncode, if_pos hcfg, messageValid_eq_false.2 ⟨_, hm, hready, hrepr, hwide⟩]
    rfl
  | messageTooLarge hcfg hready hrepr hlarge =>
    rw [exec, execEncode, if_pos hcfg, messageValid_eq_true.2 ⟨hready, hrepr⟩, andThen_next, if_pos rfl,
      if_pos (messageTooLarge_eq_true.2 hlarge)]
    rfl
  | imageTooSmall hcfg hsmall =>
    rw [exec, execDecode, if_pos hcfg, if_pos hsmall]
    rfl
  | truncatedPayload hcfg hcap hbits hshort =>
    rw [exec, execDecode, if_pos hcfg, if_neg (by omega), readHeader_eq_next.2 ⟨hbits, rfl⟩, andThen_next,
      if_pos (payloadTruncated_eq_true.2 hshort)]
    rfl

/-- An operation that answers has ended with OK, or it has met the condition of an error and changed STATUS only. -/
theorem exec_ok_or_raises {i : Instr} {s t : State} (h : exec i s = .next t) :
    t.status = 0 ∨ ∃ e, Raises s i e ∧ t = complete e.code s := by
  cases i with
  | locate =>
    rcases execLocate_cases h with ⟨-, rfl⟩ | ⟨hbad, rfl⟩
    · exact Or.inl statusWord_ok
    · exact Or.inr ⟨_, .badConfig (cfgLocateOk_eq_false.1 hbad), rfl⟩
  | encode =>
    rcases execEncode_cases h with ⟨hbad, rfl⟩ | ⟨hcfg, hinvalid, rfl⟩ | ⟨hcfg, hvalid, hlarge, rfl⟩ |
      ⟨-, -, -, hemit⟩
    · exact Or.inr ⟨_, .badConfig (cfgCodecOk_eq_false.1 hbad), rfl⟩
    · obtain ⟨m, hm, hready, hrepr, hwide⟩ := messageValid_eq_false.1 hinvalid
      exact Or.inr ⟨_, .invalidMessage hcfg hm hready hrepr hwide, rfl⟩
    · obtain ⟨hready, hrepr⟩ := messageValid_eq_true.1 hvalid
      exact Or.inr ⟨_, .messageTooLarge hcfg hready hrepr (messageTooLarge_eq_true.1 hlarge), rfl⟩
    · exact Or.inl (emitStream_status hemit)
  | decode =>
    rcases execDecode_cases h with ⟨hbad, rfl⟩ | ⟨hcfg, hsmall, rfl⟩ | ⟨hcfg, hcap, hbits, hshort, rfl⟩ |
      ⟨-, -, -, -, s', -, rfl⟩
    · exact Or.inr ⟨_, .badConfig (cfgCodecOk_eq_false.1 hbad), rfl⟩
    · exact Or.inr ⟨_, .imageTooSmall hcfg hsmall, rfl⟩
    · exact Or.inr ⟨_, .truncatedPayload hcfg hcap hbits (payloadTruncated_eq_true.1 hshort), rfl⟩
    · exact Or.inl statusWord_ok

/-- The codes of the errors are distinct (R131). -/
theorem statusWord_code_injective {e e' : ErrorKind} (h : statusWord e.code = statusWord e'.code) : e = e' := by
  revert h
  cases e <;> cases e' <;> decide

/-- The STATUS an operation ends with names the error whose condition it has met. -/
theorem raises_of_status {i : Instr} {s t : State} (e : ErrorKind) (h : exec i s = .next t)
    (hstatus : t.status = statusWord e.code) : Raises s i e := by
  rcases exec_ok_or_raises h with hok | ⟨e', hraises, rfl⟩
  · exact absurd (hstatus.symm.trans hok) (statusWord_code_ne_zero e)
  · rwa [← statusWord_code_injective hstatus]

/-! The statements -/

/-- Settles O18 (R132): the first invalid element is the condition of InvalidMessage, and STATUS 1 names that error. -/
theorem invalidMessageExactly : Obligations.InvalidMessageExactly := by
  refine ⟨fun s m hcfg hm hready hrepr hwide => exec_of_raises (.invalidMessage hcfg hm hready hrepr hwide),
    fun i s t h hstatus => ?_⟩
  cases raises_of_status .invalidMessage h hstatus with
  | invalidMessage hcfg hm hready hrepr hwide =>
    exact ⟨rfl, _, _, hm, read_msg_of_le_codepoint hwide, hwide⟩

/-- Settles O19 (R133): the two causes are one condition, that of MessageTooLarge, and STATUS 2 names that error. -/
theorem messageTooLargeExactly : Obligations.MessageTooLargeExactly := by
  refine ⟨fun s hcfg hready hrepr hlarge => exec_of_raises (.messageTooLarge hcfg hready hrepr hlarge),
    fun i s t h hstatus => ?_⟩
  cases raises_of_status .messageTooLarge h hstatus with
  | messageTooLarge hcfg hready hrepr hlarge => exact ⟨rfl, hlarge⟩

/-- Settles O24 (R135): a capacity below HDRBITS is DECODE's ImageTooSmall; for ENCODE it is below the need too. -/
theorem imageTooSmallExactly : Obligations.ImageTooSmallExactly := by
  refine ⟨fun s hcfg hsmall => exec_of_raises (.imageTooSmall hcfg hsmall), fun i s t h hstatus => ?_,
    fun s hcfg hready hrepr hsmall => ?_⟩
  · cases raises_of_status .imageTooSmall h hstatus with
    | imageTooSmall hcfg hsmall => exact ⟨rfl, hsmall⟩
  · have hneed : capacity s < requiredBits s := hsmall.trans_le (Nat.le_add_right _ _)
    exact exec_of_raises (.messageTooLarge hcfg hready hrepr (Or.inl hneed))

/-- Settles O25 (R138): the declared payload that does not fit is the condition of TruncatedPayload, and STATUS 4 names
that error. -/
theorem truncatedPayloadExactly : Obligations.TruncatedPayloadExactly := by
  refine ⟨fun s hcfg hcap hbits hshort => exec_of_raises (.truncatedPayload hcfg hcap hbits hshort),
    fun i s t h hstatus => ?_⟩
  cases raises_of_status .truncatedPayload h hstatus with
  | truncatedPayload hcfg hcap hbits hshort => exact ⟨rfl, hbits, hshort⟩

/-- Settles O31 (R134): an illegal configuration is the condition of BadConfig, and STATUS 5 names that error. -/
theorem badConfigExactly : Obligations.BadConfigExactly := by
  refine ⟨fun i s hbad => exec_of_raises (.badConfig hbad), fun i s t h hstatus => ?_⟩
  cases raises_of_status .badConfig h hstatus with
  | badConfig hbad => exact hbad

/-- Settles O32 (R137): an operation that has not ended with OK has raised an error. -/
theorem failureChangesOnlyStatus : Obligations.FailureChangesOnlyStatus := by
  intro i s t h hfail
  rcases exec_ok_or_raises h with hok | ⟨e, -, rfl⟩
  · exact absurd hok hfail
  · rfl

end Sys2Proof.Machine
end

section
/-! PROOFS. A reset while the engine is idle (R150, R151). -/

namespace Sys2Proof.Machine

/-- What the host reads after a reset: the reset value of every register (R38). -/
@[simp] theorem readReg_resetRegisters (s : State) (r : Reg) :
    readReg (resetRegisters s) r = if r = .hdrbits then 32 else 0 := by
  cases r <;> rfl

theorem step_reset {s : State} {rest : List Event} (h : s.script = .reset :: rest) :
    step s = .next (resetRegisters { s with script := rest }) :=
  step_next_event h

/-! The statement -/

/-- Settles O39 (R151): the step is `resetRegisters`, which leaves the memories and the rest of the script. -/
theorem resetSetsRegisters : Obligations.ResetSetsRegisters := by
  intro s rest h
  exact ⟨_, step_reset h, readReg_resetRegisters _, resetRegisters_pix _, resetRegisters_msg _,
    resetRegisters_script _⟩

end Sys2Proof.Machine
end

section
/-! PROOFS. ENCODE and DECODE as functions of the state: when each succeeds, and with which state (R90, R110). -/

namespace Sys2Proof.Machine

/-! A run of consecutive addresses written in order (R51) -/

/-- The memory with `f a` at each of the `n` addresses from `i` on, written in ascending order. -/
def Memory.writeRange {β : Type} (f : Nat → β) : Nat → Nat → List (Nat × β) → List (Nat × β)
  | 0, _, m => m
  | n + 1, i, m => Memory.writeRange f n (i + 1) (Memory.write m i (f i))

section
variable {β : Type} {f g : Nat → β}

theorem Memory.read_writeRange (n i : Nat) (m : List (Nat × β)) (a : Nat) :
    Memory.read (Memory.writeRange f n i m) a = if i ≤ a ∧ a < i + n then some (f a) else Memory.read m a := by
  induction n generalizing i m with
  | zero => rw [Memory.writeRange, if_neg (by omega)]
  | succ n ih =>
    rw [Memory.writeRange, ih, Memory.read_write]
    by_cases hlater : i + 1 ≤ a ∧ a < i + 1 + n
    · rw [if_pos hlater, if_pos (by omega)]
    · by_cases hfirst : a = i
      · rw [if_neg hlater, if_pos hfirst, if_pos (by omega), hfirst]
      · rw [if_neg hlater, if_neg hfirst, if_neg (by omega)]

theorem Memory.writeRange_congr {n i : Nat} {m : List (Nat × β)} (h : ∀ a, i ≤ a → a < i + n → f a = g a) :
    Memory.writeRange f n i m = Memory.writeRange g n i m := by
  induction n generalizing i m with
  | zero => rfl
  | succ n ih =>
    rw [Memory.writeRange, Memory.writeRange, h i (le_refl i) (by omega)]
    exact ih fun a hlo hhi => h a (by omega) (by omega)

/-- Writing what the memory holds already leaves it as it is, entry by entry. -/
theorem Memory.writeRange_same {n i : Nat} {m : List (Nat × β)}
    (h : ∀ a, i ≤ a → a < i + n → Memory.read m a = some (f a)) : Memory.writeRange f n i m = m := by
  induction n generalizing i with
  | zero => rfl
  | succ n ih =>
    rw [Memory.writeRange, Memory.write_read m (h i (le_refl i) (by omega))]
    exact ih fun a hlo hhi => h a (by omega) (by omega)

theorem Memory.writeRange_wf {n i : Nat} {m : List (Nat × β)} (h : Memory.wf m = true) :
    Memory.wf (Memory.writeRange f n i m) = true := by
  induction n generalizing i m with
  | zero => exact h
  | succ n ih => exact ih (Memory.write_wf m i (f i) h)

theorem Memory.writeRange_every {p : Nat → β → Bool} {n i : Nat} {m : List (Nat × β)}
    (hf : ∀ a, a < i + n → p a (f a) = true) (h : Memory.every p m = true) :
    Memory.every p (Memory.writeRange f n i m) = true := by
  induction n generalizing i m with
  | zero => exact h
  | succ n ih => exact ih (fun a ha => hf a (by omega)) (Memory.write_every p m i (f i) (hf i (by omega)) h)

end

/-! DECODE (R110 to R116) -/

/-- What DECODE needs to succeed: a legal configuration, a stream that fits the buffer by the length its header spells,
the bytes of that stream, and the elements for its characters. -/
structure DecodeReady (s : State) : Prop where
  legal : cfgCodecOk s = true
  fits : s.hdrbits + carriedLength s * s.bpc ≤ capacity s
  bytes : BitsReady s (s.hdrbits + carriedLength s * s.bpc)
  elements : carriedLength s ≤ s.params.msgDepth

/-- The state a successful DECODE answers: the characters the buffer carries in MSG, in order. -/
def decoded (s : State) : State :=
  { s with
    msg := Memory.writeRange (carriedChar s) (carriedLength s) 0 s.msg
    msglen := carriedLength s
    k := s.hdrbits + carriedLength s * s.bpc
    status := 0 }

theorem carriedChar_msg_k (s : State) (m : List (Nat × Nat)) (k : Nat) :
    carriedChar { s with msg := m, k := k } = carriedChar s :=
  funext fun _ => carriedField_congr _ _ _ fun _ _ => rfl

/-- The payload loop writes the carried characters, from element `i` on when it starts at the first bit of character `i`. -/
theorem getChars_msg {n i : Nat} {s t : State} (hk : s.k = s.hdrbits + i * s.bpc) (h : getChars n i s = .next t) :
    t.msg = Memory.writeRange (carriedChar s) n i s.msg := by
  induction n generalizing s i with
  | zero =>
    cases h
    rfl
  | succ n ih =>
    obtain ⟨s', hchar, hrest⟩ := andThen_eq_next.1 h
    obtain ⟨-, -, rfl⟩ := getChar_eq_next.1 hchar
    rw [ih (by simp only [hk]; ring) hrest, carriedChar_msg_k, hk]
    rfl

theorem execDecode_success {s t : State} (h : execDecode s = .next t) (hok : t.status = 0) :
    DecodeReady s ∧ t = decoded s := by
  rcases execDecode_cases h with ⟨-, rfl⟩ | ⟨-, -, rfl⟩ | ⟨-, -, -, -, rfl⟩ |
    ⟨hcfg, -, hheader, hfits, s', hchars, rfl⟩
  · exact absurd hok (statusWord_code_ne_zero _)
  · exact absurd hok (statusWord_code_ne_zero _)
  · exact absurd hok (statusWord_code_ne_zero _)
  · obtain ⟨hbytes, helements, -, hs'⟩ := getChars_eq_next hchars
    refine ⟨⟨hcfg, payloadTruncated_eq_false.1 hfits, fun k hk => ?_, ?_⟩, ?_⟩
    · by_cases hk' : k < s.hdrbits
      · exact hheader k hk'
      · exact hbytes k (Nat.not_lt.1 hk') hk
    · by_contra hlong
      obtain ⟨hinside, -⟩ := helements s.params.msgDepth (Nat.not_le.1 hlong)
      exact absurd hinside (by simp)
    · rw [hs', getChars_msg (by simp) hchars, carriedChar_msg_k]
      rfl

theorem execDecode_of_decodeReady {s : State} (h : DecodeReady s) : execDecode s = .next (decoded s) := by
  obtain ⟨t, hexec, ht, -⟩ := execDecode_of_ready h.legal h.fits h.bytes h.elements
  obtain ⟨-, hdecoded⟩ := execDecode_success hexec (by rw [ht])
  rw [hexec, hdecoded]

theorem decoded_msg_read (s : State) (i : Nat) :
    Memory.read (decoded s).msg i = if i < carriedLength s then some (carriedChar s i) else Memory.read s.msg i := by
  simp [decoded, Memory.read_writeRange]

/-! Another state whose buffer spells the same stream -/

/-- The buffers of `s` and `u` spell, bit for bit and as far as DECODE reads it, the same stream, in the same format. -/
structure SameStream (s u : State) : Prop where
  bpc : u.bpc = s.bpc
  hdrbits : u.hdrbits = s.hdrbits
  bits : ∀ k, k < s.hdrbits + carriedLength s * s.bpc → carriedBit u k = carriedBit s k

theorem carriedLength_congr {s u : State} (hhdr : u.hdrbits = s.hdrbits)
    (hbits : ∀ k, k < s.hdrbits → carriedBit u k = carriedBit s k) : carriedLength u = carriedLength s := by
  rw [carriedLength, hhdr]
  exact carriedField_congr _ _ _ fun j hj => hbits _ (by omega)

section
variable {s u : State} (h : SameStream s u)
include h

theorem SameStream.carriedLength_eq : carriedLength u = carriedLength s :=
  carriedLength_congr h.hdrbits fun k hk => h.bits k (by omega)

theorem SameStream.carriedChar_eq {i : Nat} (hi : i < carriedLength s) : carriedChar u i = carriedChar s i := by
  rw [carriedChar, h.hdrbits, h.bpc]
  refine carriedField_congr _ _ _ fun j hj => h.bits _ ?_
  have hchar : (i + 1) * s.bpc ≤ carriedLength s * s.bpc := Nat.mul_le_mul_right _ hi
  rw [Nat.succ_mul] at hchar
  omega

theorem SameStream.decodeReady (hr : DecodeReady s) (hcfg : cfgCodecOk u = true)
    (hcap : s.hdrbits + carriedLength s * s.bpc ≤ capacity u)
    (hbytes : BitsReady u (s.hdrbits + carriedLength s * s.bpc)) (hparams : u.params = s.params) :
    DecodeReady u := by
  refine ⟨hcfg, ?_, ?_, ?_⟩
  · rw [h.carriedLength_eq, h.hdrbits, h.bpc]
    exact hcap
  · rw [h.carriedLength_eq, h.hdrbits, h.bpc]
    exact hbytes
  · rw [h.carriedLength_eq, hparams]
    exact hr.elements

/-- The same stream gives the same characters, MSGLEN and counter. -/
theorem SameStream.decoded_eq :
    decoded u = { u with
      msg := Memory.writeRange (carriedChar s) (carriedLength s) 0 u.msg
      msglen := carriedLength s
      k := s.hdrbits + carriedLength s * s.bpc
      status := 0 } := by
  have hchars : Memory.writeRange (carriedChar u) (carriedLength s) 0 u.msg
      = Memory.writeRange (carriedChar s) (carriedLength s) 0 u.msg :=
    Memory.writeRange_congr fun i _ hi => h.carriedChar_eq (by omega)
  simp only [decoded, h.carriedLength_eq, h.hdrbits, h.bpc, hchars]

end

/-! ENCODE (R90 to R97) -/

/-- What ENCODE needs to succeed: a legal configuration, a message that is there, representable and fits, and the bytes of
its stream. -/
structure EncodeReady (s : State) : Prop where
  legal : cfgCodecOk s = true
  message : MessageReady s s.msglen
  representable : MessageRepresentable s s.msglen
  fits : MessageFits s
  bytes : BitsReady s (requiredBits s)

theorem execEncode_eq_emitStream {s : State} (h : EncodeReady s) : execEncode s = emitStream s := by
  rw [execEncode, if_pos h.legal, messageValid_eq_true.2 ⟨h.message, h.representable⟩, andThen_next, if_pos rfl,
    messageTooLarge_eq_false.2 h.fits, if_neg Bool.false_ne_true]

theorem execEncode_of_encodeReady {s : State} (h : EncodeReady s) : ∃ t, execEncode s = .next t ∧ t.status = 0 := by
  obtain ⟨-, hc, hs, -⟩ := cfgCodecOk_iff.1 h.legal
  obtain ⟨t, ht⟩ := emitStream_complete hc hs h.message h.bytes
  exact ⟨t, (execEncode_eq_emitStream h).trans ht, emitStream_status ht⟩

theorem encodeReady_of_success {s t : State} (h : execEncode s = .next t) (hok : t.status = 0) : EncodeReady s := by
  obtain ⟨hcfg, hvalid, hfits, -⟩ := execEncode_success h hok
  obtain ⟨hmessage, hrepr⟩ := messageValid_eq_true.1 hvalid
  obtain ⟨-, hst⟩ := execEncode_stamps h hok
  refine ⟨hcfg, hmessage, hrepr, hfits, fun k hk => ?_⟩
  obtain ⟨old, hinside, hold, -⟩ := hst.at_bit k (Nat.zero_le k) hk
  exact ⟨hinside, by rw [hold]; rfl⟩

/-- Where the buffer carries the message already, ENCODE changes only the counter and STATUS (R48). -/
theorem execEncode_of_carried {s : State} (h : EncodeReady s) (hlen : s.msglen = carriedLength s)
    (hchars : ∀ i, i < s.msglen → codepoint s i = carriedChar s i) :
    execEncode s = .next { s with k := requiredBits s, status := 0 } := by
  obtain ⟨-, -, -, hbpc, -⟩ := cfgCodecOk_iff.1 h.legal
  obtain ⟨t, hexec, -⟩ := execEncode_of_encodeReady h
  rw [hexec, emitStream_same (by omega) ((execEncode_eq_emitStream h).symm.trans hexec) hlen hchars]

theorem codepoint_of_read {s : State} {i v : Nat} (h : Memory.read s.msg i = some v) : codepoint s i = v := by
  simp only [codepoint, h]

/-- The message that DECODE has delivered is one ENCODE accepts for the same buffer, and the one this buffer carries. -/
theorem encodeReady_of_decoded {s u : State} (h : DecodeReady s) (hcfg : SameCodecConfig s u) (hpix : u.pix = s.pix)
    (hmsg : u.msg = (decoded s).msg) (hmsglen : u.msglen = carriedLength s) :
    EncodeReady u ∧ u.msglen = carriedLength u ∧ ∀ i, i < u.msglen → codepoint u i = carriedChar u i := by
  have hstream : SameStream s u :=
    ⟨hcfg.bpc, hcfg.hdrbits, fun k _ => by simp only [carriedBit, hpix, hcfg.bitOffset_eq]⟩
  have hread : ∀ i, i < u.msglen → Memory.read u.msg i = some (carriedChar u i) := fun i hi => by
    rw [hmsglen] at hi
    rw [hmsg, decoded_msg_read, if_pos hi, hstream.carriedChar_eq hi]
  have hneed : requiredBits u = s.hdrbits + carriedLength s * s.bpc := by
    rw [requiredBits, hmsglen, hcfg.hdrbits, hcfg.bpc]
  refine ⟨⟨hcfg.cfgCodecOk_eq.trans h.legal, fun i hi => ⟨?_, ?_⟩, fun i hi => ?_, ⟨?_, ?_⟩, fun k hk => ?_⟩, ?_,
    fun i hi => codepoint_of_read (hread i hi)⟩
  · rw [hcfg.params]
    exact (hi.trans_eq hmsglen).trans_le h.elements
  · rw [hread i hi]
    rfl
  · rw [codepoint_of_read (hread i hi)]
    exact carriedField_lt u _ _
  · rw [hneed, hcfg.capacity_eq]
    exact h.fits
  · have hheader : carriedLength s < 2 ^ s.hdrbits := carriedField_lt s 0 s.hdrbits
    rw [hmsglen, hcfg.hdrbits]
    omega
  · rw [hcfg.bitOffset_eq, hcfg.params, hpix]
    exact h.bytes k (hk.trans_eq hneed)
  · rw [hstream.carriedLength_eq, hmsglen]

/-! The statements -/

/-- Settles O30 (R120): what DECODE delivered is a message the buffer carries, and ENCODE leaves such a buffer as it is. -/
theorem reencodeRestoresPixels : Obligations.ReencodeRestoresPixels := by
  intro s t u h hok hcfg hpix hmsg hmsglen
  obtain ⟨hready, rfl⟩ := execDecode_success h hok
  obtain ⟨hready', hlen, hchars⟩ := encodeReady_of_decoded hready hcfg hpix hmsg hmsglen
  exact ⟨_, execEncode_of_carried hready' hlen hchars, rfl, hpix⟩

end Sys2Proof.Machine
end

section
/-! PROOFS. What ENCODE and DECODE write, what they need, and what a second run or another buffer makes of it. -/

namespace Sys2Proof.Machine

/-! ENCODE (R48, R90 to R97) -/

/-- Settles O14 (R90 to R97): the conditions are those of `EncodeReady`, and a success stamps the stream. -/
theorem encodeWritesStream : Obligations.EncodeWritesStream := by
  intro s hcfg hmessage hrepr hfits hbytes
  obtain ⟨t, hexec, hok⟩ := execEncode_of_encodeReady ⟨hcfg, hmessage, hrepr, hfits, hbytes⟩
  obtain ⟨ht, hst⟩ := execEncode_stamps hexec hok
  refine ⟨t, hexec, ht, fun k hk => ?_, fun a ha => hst.elsewhere a fun k _ hk => ha k hk⟩
  obtain ⟨old, -, hold, hnew⟩ := hst.at_bit k (Nat.zero_le k) hk
  refine ⟨old, _, hold, hnew, ?_, fun j hj => ?_⟩
  · rw [overwriteLsb_getLsbD, if_pos rfl]
  · rw [overwriteLsb_getLsbD, if_neg (by omega)]

/-- The message of a successful ENCODE is the one its result carries. -/
theorem carried_of_encoded {s t : State} (h : execEncode s = .next t) (hok : t.status = 0) :
    EncodeReady t ∧ t.msglen = carriedLength t ∧ ∀ i, i < t.msglen → codepoint t i = carriedChar t i := by
  have hready := encodeReady_of_success h hok
  obtain ⟨ht, hst⟩ := execEncode_stamps h hok
  generalize t.pix = pix at ht hst
  subst ht
  obtain ⟨-, hheader⟩ := hready.fits
  have hlen : s.msglen < 2 ^ s.hdrbits := by have := Nat.two_pow_pos s.hdrbits; omega
  have hcfg : SameCodecConfig s { s with pix := pix, k := requiredBits s, status := 0 } :=
    ⟨rfl, rfl, rfl, rfl, rfl, rfl, rfl⟩
  have hbits := fun k (hk : k < requiredBits s) => hst.carriedBit_eq hcfg (Nat.zero_le k) hk
  exact ⟨⟨hready.legal, hready.message, hready.representable, hready.fits, hst.bitsReady hcfg⟩,
    (carriedLength_of_stream hcfg hbits hlen).symm,
    fun i hi => (carriedChar_of_stream hcfg hbits hi (hready.representable i hi)).symm⟩

/-- Settles O20 (R48): the result carries the message already, and its counter and STATUS are those of a success. -/
theorem encodeIsIdempotent : Obligations.EncodeIsIdempotent := by
  intro s t h hok
  obtain ⟨hready, hlen, hchars⟩ := carried_of_encoded h hok
  obtain ⟨ht, -⟩ := execEncode_stamps h hok
  rw [exec, execEncode_of_carried hready hlen hchars, ht]
  rfl

/-! DECODE (R110 to R119) -/

/-- Settles O21 (R110 to R116): the conditions are those of `DecodeReady`, and the result is `decoded`. -/
theorem decodeDeliversMessage : Obligations.DecodeDeliversMessage := by
  intro s hcfg hfits hbytes helements
  refine ⟨_, execDecode_of_decodeReady ⟨hcfg, hfits, hbytes, helements⟩, rfl, rfl, fun i hi => ?_, fun i hi => ?_⟩
  · rw [decoded_msg_read, if_pos hi]
  · rw [decoded_msg_read, if_neg (by omega)]

/-- Settles O22 (R115, R116): the fields of `decoded`, and the bits of a carried field. -/
theorem decodeResult : Obligations.DecodeResult := by
  intro s t h hok
  obtain ⟨-, rfl⟩ := execDecode_success h hok
  refine ⟨rfl, fun i hi => ⟨?_, fun j hj => carriedField_testBit s _ _ j hj⟩, fun i hi => ?_, fun hzero => ?_, rfl⟩
  · rw [decoded_msg_read, if_pos hi]
  · rw [decoded_msg_read, if_neg (by omega)]
  · rw [decoded, hzero]
    rfl

/-- Settles O26 (R119 (h)): the result spells the same stream, and its MSG holds the characters already. -/
theorem decodeIsRepeatable : Obligations.DecodeIsRepeatable := by
  intro s t h hok
  obtain ⟨hready, rfl⟩ := execDecode_success h hok
  have hstream : SameStream s (decoded s) := ⟨rfl, rfl, fun _ _ => rfl⟩
  have hready' : DecodeReady (decoded s) := hstream.decodeReady hready hready.legal hready.fits hready.bytes rfl
  have hsame : Memory.writeRange (carriedChar s) (carriedLength s) 0 (decoded s).msg = (decoded s).msg :=
    Memory.writeRange_same fun i _ hi => by rw [decoded_msg_read, if_pos (by omega)]
  rw [exec, execDecode_of_decodeReady hready', hstream.decoded_eq, hsame]
  rfl

/-- Another pixel memory with the same LSBs below the capacity has the same bits ready and carries the same. -/
theorem lsbs_agree {s : State} {pix : List Host.Cell} {n : Nat} (hn : n ≤ capacity s) (hready : BitsReady s n)
    (hsame : ∀ k, k < capacity s → ∀ v, Memory.read s.pix (bitOffset s k) = some v →
      ∃ v', Memory.read pix (bitOffset s k) = some v' ∧ v'.getLsbD 0 = v.getLsbD 0) :
    BitsReady { s with pix := pix } n ∧ ∀ k, k < n → carriedBit { s with pix := pix } k = carriedBit s k := by
  have hread : ∀ k, k < n → ∃ v v', Memory.read s.pix (bitOffset s k) = some v ∧
      Memory.read pix (bitOffset s k) = some v' ∧ v'.getLsbD 0 = v.getLsbD 0 := fun k hk => by
    obtain ⟨-, hsome⟩ := hready k hk
    obtain ⟨v, hv⟩ := Option.isSome_iff_exists.1 hsome
    obtain ⟨v', hv', hlsb⟩ := hsame k (hk.trans_le hn) v hv
    exact ⟨v, v', hv, hv', hlsb⟩
  refine ⟨fun k hk => ?_, fun k hk => ?_⟩
  · obtain ⟨hinside, -⟩ := hready k hk
    obtain ⟨-, v', -, hv', -⟩ := hread k hk
    exact ⟨hinside, Option.isSome_iff_exists.2 ⟨v', hv'⟩⟩
  · obtain ⟨v, v', hv, hv', hlsb⟩ := hread k hk
    have hoff : bitOffset { s with pix := pix } k = bitOffset s k := rfl
    simp only [carriedBit, hoff, hv, hv', hlsb]

/-- Settles O27 (R26, R45): the success reads the same stream; each error's condition holds of the other memory too, and
that of TruncatedPayload because the header is the same. -/
theorem decodeSeesOnlyLsbs : Obligations.DecodeSeesOnlyLsbs := by
  intro s t pix hsame h
  rcases exec_ok_or_raises h with hok | ⟨e, hraises, rfl⟩
  · obtain ⟨hready, rfl⟩ := execDecode_success h hok
    obtain ⟨hbytes, hbits⟩ := lsbs_agree hready.fits hready.bytes hsame
    have hstream : SameStream s { s with pix := pix } := ⟨rfl, rfl, hbits⟩
    rw [exec, execDecode_of_decodeReady (hstream.decodeReady hready hready.legal hready.fits hbytes rfl),
      hstream.decoded_eq]
    rfl
  · cases hraises with
    | badConfig hbad => exact exec_of_raises (.badConfig (s := { s with pix := pix }) hbad)
    | imageTooSmall hcfg hsmall => exact exec_of_raises (.imageTooSmall (s := { s with pix := pix }) hcfg hsmall)
    | truncatedPayload hcfg hcap hbits hshort =>
      obtain ⟨hbytes, hheader⟩ := lsbs_agree hcap hbits hsame
      have hlen : carriedLength { s with pix := pix } = carriedLength s := carriedLength_congr rfl hheader
      exact exec_of_raises (.truncatedPayload (s := { s with pix := pix }) hcfg hcap hbytes (by rw [hlen]; exact hshort))

/-- Settles O28 (R155, C8): WIDTH is not in the byte offsets, so the stream is the same; legality and the capacity test
are the statement's hypotheses. -/
theorem decodeIgnoresWidth : Obligations.DecodeIgnoresWidth := by
  intro s t w h hok hw hcap
  obtain ⟨hready, rfl⟩ := execDecode_success h hok
  obtain ⟨-, hlegal⟩ := cfgCodecOk_iff.1 hready.legal
  have hoff : ∀ k, bitOffset { s with width := w } k = bitOffset s k := fun k => by rw [bitOffset_eq, bitOffset_eq]
  have hstream : SameStream s { s with width := w } := ⟨rfl, rfl, fun k _ => by simp only [carriedBit, hoff]⟩
  have hready' : DecodeReady { s with width := w } :=
    hstream.decodeReady hready (cfgCodecOk_iff.2 ⟨hw, hlegal⟩) hcap
      (fun k hk => by rw [hoff]; exact hready.bytes k hk) rfl
  rw [exec, execDecode_of_decodeReady hready', hstream.decoded_eq]
  rfl

/-! The operations together (R41, R43, R63, R131) -/

/-- Settles O33 (R131): the errors an operation can raise are the constructors of `Raises` for it. -/
theorem errorCodesPerOperation : Obligations.ErrorCodesPerOperation := by
  intro i s t h
  rcases exec_ok_or_raises h with hok | ⟨e, hraises, rfl⟩
  · cases i <;> exact Or.inl hok
  · cases hraises with
    | badConfig => cases i <;> simp [statusWord_code]
    | invalidMessage => simp [statusWord_code]
    | messageTooLarge => simp [statusWord_code]
    | imageTooSmall => simp [statusWord_code]
    | truncatedPayload => simp [statusWord_code]

/-- Settles O34 (R63): an error changes STATUS only; a success of LOCATE sets the triple, one of ENCODE stamps bits below
`need`, one of DECODE writes characters below the length. -/
theorem operationsWriteOnlyTheirResults : Obligations.OperationsWriteOnlyTheirResults := by
  intro i s t h
  rcases exec_ok_or_raises h with hok | ⟨e, -, rfl⟩
  · cases i with
    | locate =>
      rcases execLocate_cases h with ⟨-, rfl⟩ | ⟨-, rfl⟩
      · rfl
      · rfl
    | encode =>
      obtain ⟨ht, hst⟩ := execEncode_stamps h hok
      exact ⟨by rw [ht], fun a ha => hst.elsewhere a fun k _ hk => ha k hk⟩
    | decode =>
      obtain ⟨-, rfl⟩ := execDecode_success h hok
      exact ⟨rfl, fun i hi => by rw [decoded_msg_read, if_neg (by omega)]⟩
  · cases i with
    | locate => rfl
    | encode => exact ⟨rfl, fun _ _ => rfl⟩
    | decode => exact ⟨rfl, fun _ _ => rfl⟩

/-- Settles O35 (R41, R43): a success has met the conditions of `EncodeReady` and `DecodeReady`. -/
theorem codecNeedsReadyMemory : Obligations.CodecNeedsReadyMemory := by
  refine ⟨fun s t h hok => ?_, fun s t h hok => ?_⟩
  · have hready := encodeReady_of_success h hok
    exact ⟨hready.message, hready.bytes⟩
  · obtain ⟨hready, -⟩ := execDecode_success h hok
    exact ⟨hready.bytes, fun i hi => hi.trans_le hready.elements⟩

end Sys2Proof.Machine
end

section
/-! PROOFS. The decoder: which words and values are commands (R60 to R65). -/

namespace Sys2Proof

/-- A word is its two fields. -/
theorem cmdWord_cmdFields (w : Word) : cmdWord (cmdFields w) = w := by
  rw [cmdWord, cmdFields, BitVec.extractLsb'_append_extractLsb'_eq_extractLsb' (by rfl)]
  exact BitVec.extractLsb'_eq_self

theorem opInstr_eq_some {op : BitVec 2} {i : Instr} : opInstr op = some i ↔ op = instrOp i := by
  cases i <;> decide +revert

theorem decodeWord_encodeWord (i : Instr) : decodeWord (encodeWord i) = .ok i := by
  cases i <;> decide

/-- The encoder is the decoder's inverse: the word that decodes to `i` has the fields the encoder gives it. -/
theorem decodeWord_eq_ok {w : Word} {i : Instr} : decodeWord w = .ok i ↔ w = encodeWord i := by
  refine ⟨fun h => ?_, fun h => h ▸ decodeWord_encodeWord i⟩
  unfold decodeWord at h
  split at h
  · cases h
  · next hzero =>
    split at h
    · next j hop =>
      cases h
      rw [← cmdWord_cmdFields w, encodeWord, ← opInstr_eq_some.1 hop, ← not_not.1 hzero]
    · cases h

/-- So it is for a value: one above 32 bits is no command, any other is its word (log 14). -/
theorem decodeValue_eq_ok {v : Nat} {i : Instr} : decodeValue v = .ok i ↔ v = (encodeWord i).toNat := by
  unfold decodeValue
  split
  · next hv => rw [decodeWord_eq_ok, ← BitVec.toNat_inj, BitVec.toNat_ofNat, Nat.mod_eq_of_lt hv]
  · next hv =>
    refine ⟨nofun, fun h => absurd (encodeWord i).isLt ?_⟩
    rw [← h]
    exact hv

theorem decodeValue_one : decodeValue 1 = .ok .locate := by decide

theorem decodeValue_two : decodeValue 2 = .ok .encode := by decide

theorem decodeValue_three : decodeValue 3 = .ok .decode := by decide

/-! The statements -/

/-- Settles O1 (R60, R61, and log 14 for the last clause): the decoder computes each of them. -/
theorem writtenWordsDecode : Obligations.WrittenWordsDecode := by
  unfold Obligations.WrittenWordsDecode
  decide

/-- Settles O2 (R60, R61): one word for each instruction. -/
theorem encodedInstructionDecodes : Obligations.EncodedInstructionDecodes :=
  decodeWord_encodeWord

/-- Settles O3 (R61, and log 14 for the values): a command is the encoding of its instruction, and the three encodings
are 1, 2 and 3. -/
theorem onlyThreeWordsAreCommands : Obligations.OnlyThreeWordsAreCommands := by
  refine ⟨fun w i => ?_, fun v i => ?_⟩
  · rw [decodeWord_eq_ok]
    cases i <;> simp [encodeWord, cmdWord, instrOp]
  · rw [decodeValue_eq_ok]
    cases i <;> simp [encodeWord, cmdWord, instrOp]

end Sys2Proof
end

section
/-! PROOFS. The parts of the invariant that the operations' results owe to it (R8, R30, R37, R41, R43). -/

namespace Sys2Proof.Machine

/-- PIX in canonical form, inside its window. -/
abbrev PixCanonical (s : State) : Prop :=
  Memory.wf s.pix = true ∧ Memory.every (fun a _ => decide (a < s.params.pixBytes)) s.pix = true

/-- MSG in canonical form, inside its window, every element of CPW bits. -/
abbrev MsgCanonical (s : State) : Prop :=
  Memory.wf s.msg = true ∧
    Memory.every (fun i v => decide (i < s.params.msgDepth) && decide (v < 2 ^ s.params.cpw)) s.msg = true

theorem State.Inv.pixCanonical {s : State} (h : s.Inv) : PixCanonical s := ⟨h.pixForm, h.pixUnits⟩

theorem State.Inv.msgCanonical {s : State} (h : s.Inv) : MsgCanonical s := ⟨h.msgForm, h.msgUnits⟩

/-- The invariant does not speak of the events still to come. -/
theorem State.Inv.script {s : State} (h : s.Inv) (rest : List Event) : ({ s with script := rest } : State).Inv :=
  ⟨h.params, h.registers, h.status, h.counter, h.pixForm, h.pixUnits, h.msgForm, h.msgUnits⟩

/-- A character fits an element of MSG (R37). -/
theorem State.Inv.two_pow_bpc_le {s : State} (h : s.Inv) (hcfg : cfgCodecOk s = true) : 2 ^ s.bpc ≤ 2 ^ s.params.cpw := by
  obtain ⟨-, -, -, hbpc, -⟩ := cfgCodecOk_iff.1 hcfg
  have hcpw := h.params.cpw
  exact Nat.pow_le_pow_right (by decide) (by omega)

theorem putBits_pixCanonical {v n : Nat} {s t : State} (h : putBits v n s = .next t) (hs : PixCanonical s) :
    PixCanonical t := by
  induction n generalizing s with
  | zero =>
    cases h
    exact hs
  | succ n ih =>
    obtain ⟨s', hbit, hrest⟩ := andThen_eq_next.1 h
    obtain ⟨old, hinside, -, rfl⟩ := putBit_eq_next.1 hbit
    obtain ⟨hwf, hunits⟩ := hs
    exact ih hrest ⟨Memory.write_wf _ _ _ hwf, Memory.write_every _ _ _ _ (decide_eq_true hinside) hunits⟩

theorem putChars_pixCanonical {n i : Nat} {s t : State} (h : putChars n i s = .next t) (hs : PixCanonical s) :
    PixCanonical t := by
  induction n generalizing s i with
  | zero =>
    cases h
    exact hs
  | succ n ih =>
    obtain ⟨cp, -, hchar⟩ := andThen_eq_next.1 h
    obtain ⟨s', hbits, hrest⟩ := andThen_eq_next.1 hchar
    exact ih hrest (putBits_pixCanonical hbits hs)

/-- An emission that answers keeps PIX canonical. -/
theorem emitStream_pixCanonical {s t : State} (h : emitStream s = .next t) (hs : PixCanonical s) : PixCanonical t := by
  obtain ⟨s1, hheader, hrest⟩ := andThen_eq_next.1 h
  obtain ⟨s2, hpayload, hend⟩ := andThen_eq_next.1 hrest
  have hs2 : PixCanonical s2 := putChars_pixCanonical hpayload (putBits_pixCanonical hheader hs)
  rw [succeed_eq_next.1 hend]
  exact hs2

/-- What DECODE can have written of a canonical MSG when a reset abandons it is canonical. -/
theorem decodeTargets_msgCanonical {s : State} (h : s.Inv) : MsgCanonical { s with msg := (decodeTargets s).msg } := by
  rcases decodeTargets_cases s with htargets | ⟨hcfg, -, -, -, htargets⟩
  · rw [htargets]
    exact h.msgCanonical
  · rw [htargets]
    exact getReachable_msg (s := { s with k := s.hdrbits }) (h.two_pow_bpc_le hcfg) h.msgForm h.msgUnits

/-- And so is what ENCODE can have written of a canonical PIX. -/
theorem encodeTargets_pixCanonical {s : State} (h : s.Inv) : PixCanonical { s with pix := (encodeTargets s).pix } := by
  rcases encodeTargets_cases s with htargets | ⟨-, -, -, htargets⟩
  · rw [htargets]
    exact h.pixCanonical
  · rw [htargets]
    exact putReachable_pix (s := startCounter s) h.pixForm h.pixUnits

end Sys2Proof.Machine
end

section
/-! PROOFS. A reset that abandons an operation (R152). -/

namespace Sys2Proof.Machine

/-! What the operations can have written -/

/-- ENCODE, once it has passed its tests, gives the byte at `a`, which holds `old`, the content `new`. -/
def EncodeTarget (s : State) (a : Nat) (old new : Byte) : Prop :=
  cfgCodecOk s = true ∧ MessageRepresentable s s.msglen ∧ MessageFits s ∧
    ∃ k, k < requiredBits s ∧ a = bitOffset s k ∧ new = overwriteLsb old (streamBit s k)

/-- DECODE, once it has passed its tests, gives the element `i` the content `c`. -/
def DecodeTarget (s : State) (i c : Nat) : Prop :=
  cfgCodecOk s = true ∧ s.hdrbits + carriedLength s * s.bpc ≤ capacity s ∧ i < carriedLength s ∧ c = carriedChar s i

theorem decodeTarget_script {s : State} {rest : List Event} {i c : Nat} :
    DecodeTarget { s with script := rest } i c ↔ DecodeTarget s i c := by
  rw [DecodeTarget, carriedLength_script, carriedChar_script]
  rfl

theorem encodeTargets_read (s : State) (a : Nat) :
    Memory.read (encodeTargets s).pix a = Memory.read s.pix a ∨
      ∃ old new, Memory.read s.pix a = some old ∧ Memory.read (encodeTargets s).pix a = some new ∧
        EncodeTarget s a old new := by
  rcases encodeTargets_cases s with htargets | ⟨hcfg, hvalid, hfits, htargets⟩
  · exact Or.inl (by rw [htargets])
  · obtain ⟨-, hc, hs, -⟩ := cfgCodecOk_iff.1 hcfg
    obtain ⟨-, hstamped, helse⟩ := putReachable_spec (n := requiredBits s) (s := startCounter s) hc hs
    obtain ⟨-, hrepr⟩ := messageValid_eq_true.1 hvalid
    rw [htargets]
    by_cases hreach : ∃ k old, k < requiredBits s ∧ a = bitOffset s k ∧ a < s.params.pixBytes ∧
        Memory.read s.pix a = some old
    · obtain ⟨k, old, hk, rfl, hinside, hold⟩ := hreach
      refine Or.inr ⟨old, _, hold, hstamped k (Nat.zero_le k) (by simpa using hk) old hinside hold, hcfg, hrepr,
        messageTooLarge_eq_false.1 hfits, k, hk, rfl, rfl⟩
    · refine Or.inl (helse a fun k _ hk e ⟨hinside, hsome⟩ => hreach ?_)
      obtain ⟨old, hold⟩ := Option.isSome_iff_exists.1 hsome
      exact ⟨k, old, by simpa using hk, e, e ▸ hinside, e ▸ hold⟩

theorem decodeTargets_read (s : State) (i : Nat) :
    Memory.read (decodeTargets s).msg i = Memory.read s.msg i ∨
      ∃ c, Memory.read (decodeTargets s).msg i = some c ∧ DecodeTarget s i c := by
  rcases decodeTargets_cases s with htargets | ⟨hcfg, -, -, hfits, htargets⟩
  · exact Or.inl (by rw [htargets])
  · rw [htargets]
    obtain ⟨-, hread⟩ := getReachable_spec (carriedLength s) 0 { s with k := s.hdrbits }
    rcases hread i with hold | ⟨j, hj, hij, -, hnew⟩
    · exact Or.inl hold
    · rw [Nat.zero_add] at hij
      subst hij
      have hchar : carriedField { s with k := s.hdrbits } (s.hdrbits + i * s.bpc) s.bpc = carriedChar s i :=
        carriedField_congr _ _ _ fun _ _ => rfl
      exact Or.inr ⟨_, hnew, hcfg, payloadTruncated_eq_false.1 hfits, hj, hchar⟩

/-- ENCODE writes no element of MSG. -/
theorem encodeTargets_msg (s : State) : (encodeTargets s).msg = s.msg := by
  rcases encodeTargets_cases s with htargets | ⟨hcfg, -, -, htargets⟩
  · rw [htargets]
  · obtain ⟨-, hc, hs, -⟩ := cfgCodecOk_iff.1 hcfg
    obtain ⟨hframe, -⟩ := putReachable_spec (n := requiredBits s) (s := startCounter s) hc hs
    rw [htargets, hframe]
    rfl

/-- DECODE writes no byte of PIX. -/
theorem decodeTargets_pix (s : State) : (decodeTargets s).pix = s.pix := by
  rcases decodeTargets_cases s with htargets | ⟨-, -, -, -, htargets⟩
  · rw [htargets]
  · obtain ⟨hframe, -⟩ := getReachable_spec (carriedLength s) 0 { s with k := s.hdrbits }
    rw [htargets, hframe]

/-- Only a CMD write of 2 targets bytes of PIX. -/
theorem commandTargets_pix (v : Nat) (s : State) :
    (commandTargets v s).pix = s.pix ∨ (v = 2 ∧ (commandTargets v s).pix = (encodeTargets s).pix) := by
  unfold commandTargets
  cases hv : decodeValue v with
  | error e => exact Or.inl rfl
  | ok i =>
    cases i with
    | locate => exact Or.inl rfl
    | encode => exact Or.inr ⟨decodeValue_eq_ok.1 hv, rfl⟩
    | decode => exact Or.inl (decodeTargets_pix s)

/-- Only a CMD write of 3 targets elements of MSG. -/
theorem commandTargets_msg (v : Nat) (s : State) :
    (commandTargets v s).msg = s.msg ∨ (v = 3 ∧ (commandTargets v s).msg = (decodeTargets s).msg) := by
  unfold commandTargets
  cases hv : decodeValue v with
  | error e => exact Or.inl rfl
  | ok i =>
    cases i with
    | locate => exact Or.inl rfl
    | encode => exact Or.inl (encodeTargets_msg s)
    | decode => exact Or.inr ⟨decodeValue_eq_ok.1 hv, rfl⟩

theorem commandTargets_pixCanonical {s : State} (h : s.Inv) (v : Nat) :
    PixCanonical { s with pix := (commandTargets v s).pix } := by
  rcases commandTargets_pix v s with hpix | ⟨-, hpix⟩
  · rw [hpix]
    exact h.pixCanonical
  · rw [hpix]
    exact encodeTargets_pixCanonical h

theorem commandTargets_msgCanonical {s : State} (h : s.Inv) (v : Nat) :
    MsgCanonical { s with msg := (commandTargets v s).msg } := by
  rcases commandTargets_msg v s with hmsg | ⟨-, hmsg⟩
  · rw [hmsg]
    exact h.msgCanonical
  · rw [hmsg]
    exact decodeTargets_msgCanonical h

/-! The state after the reset -/

theorem Memory.read_mix_old_or_new {β : Type} (pick : Nat → Bool) (old : List (Nat × β)) {new : List (Nat × β)}
    (h : Memory.wf new = true) (a : Nat) :
    Memory.read (Memory.mix pick old new) a = Memory.read old a ∨
      Memory.read (Memory.mix pick old new) a = Memory.read new a := by
  rw [Memory.read_mix pick old new a h]
  cases pick a <;> cases Memory.read new a <;> simp

/-- The state after a reset that abandons the command `v`. -/
def abandoned (v : Nat) (s : State) : State :=
  resetRegisters { s with
    pix := Memory.mix (Config.landed s.draws) s.pix (commandTargets v s).pix
    msg := Memory.mix (Config.landed s.draws) s.msg (commandTargets v s).msg
    draws := s.draws + 1 }

@[simp] theorem readReg_abandoned (v : Nat) (s : State) (r : Reg) :
    readReg (abandoned v s) r = if r = .hdrbits then 32 else 0 :=
  readReg_resetRegisters _ r

@[simp] theorem abandoned_script (v : Nat) (s : State) : (abandoned v s).script = s.script := rfl

@[simp] theorem abandoned_params (v : Nat) (s : State) : (abandoned v s).params = s.params := rfl

theorem step_resetDuring {s : State} {v : Nat} {rest : List Event} (h : s.script = .resetDuring v :: rest) :
    step s = whenFits s.params.xlen v (.next (abandoned v { s with script := rest })) :=
  step_next_event h

theorem step_resetDuring_of_lt {s : State} {v : Nat} {rest : List Event} (h : s.script = .resetDuring v :: rest)
    (hv : v < 2 ^ s.params.xlen) : step s = .next (abandoned v { s with script := rest }) :=
  (step_resetDuring h).trans (if_pos hv)

theorem abandoned_pix_read {s : State} (h : s.Inv) (v a : Nat) :
    Memory.read (abandoned v s).pix a = Memory.read s.pix a ∨
      (v = 2 ∧ ∃ old new, Memory.read s.pix a = some old ∧ Memory.read (abandoned v s).pix a = some new ∧
        EncodeTarget s a old new) := by
  obtain ⟨hwf, -⟩ := commandTargets_pixCanonical h v
  rcases Memory.read_mix_old_or_new (Config.landed s.draws) s.pix hwf a with hold | hnew
  · exact Or.inl hold
  · change Memory.read (abandoned v s).pix a = _ at hnew
    rcases commandTargets_pix v s with hpix | ⟨hv, hpix⟩
    · exact Or.inl (by rw [hnew, hpix])
    · rw [hnew, hpix]
      exact (encodeTargets_read s a).imp_right fun htarget => ⟨hv, htarget⟩

theorem abandoned_msg_read {s : State} (h : s.Inv) (v i : Nat) :
    Memory.read (abandoned v s).msg i = Memory.read s.msg i ∨
      (v = 3 ∧ ∃ c, Memory.read (abandoned v s).msg i = some c ∧ DecodeTarget s i c) := by
  obtain ⟨hwf, -⟩ := commandTargets_msgCanonical h v
  rcases Memory.read_mix_old_or_new (Config.landed s.draws) s.msg hwf i with hold | hnew
  · exact Or.inl hold
  · change Memory.read (abandoned v s).msg i = _ at hnew
    rcases commandTargets_msg v s with hmsg | ⟨hv, hmsg⟩
    · exact Or.inl (by rw [hnew, hmsg])
    · rw [hnew, hmsg]
      exact (decodeTargets_read s i).imp_right fun htarget => ⟨hv, htarget⟩

/-- Every byte that holds a value keeps one with the same bits 7 to 1 (R152). -/
theorem abandoned_pix_high_bits {s : State} (h : s.Inv) (v : Nat) {a : Nat} {old : Byte}
    (hold : Memory.read s.pix a = some old) :
    ∃ new, Memory.read (abandoned v s).pix a = some new ∧ (∀ j, 1 ≤ j → new.getLsbD j = old.getLsbD j) ∧
      (new = old ∨ (v = 2 ∧ EncodeTarget s a old new)) := by
  rcases abandoned_pix_read h v a with hsame | ⟨hv, old', new, hold', hnew, htarget⟩
  · exact ⟨old, hsame.trans hold, fun _ _ => rfl, Or.inl rfl⟩
  · obtain rfl : old' = old := Option.some.inj (hold'.symm.trans hold)
    refine ⟨new, hnew, fun j hj => ?_, Or.inr ⟨hv, htarget⟩⟩
    obtain ⟨-, -, -, k, -, -, rfl⟩ := htarget
    rw [overwriteLsb_getLsbD, if_neg (by omega)]

/-! A target beside the whole operation -/

/-- An ENCODE that answers has written each of its targets: its tests have been passed, so it has succeeded. -/
theorem read_pix_of_encodeTarget {s t : State} (h : execEncode s = .next t) {a : Nat} {old new : Byte}
    (hold : Memory.read s.pix a = some old) (htarget : EncodeTarget s a old new) : Memory.read t.pix a = some new := by
  obtain ⟨hcfg, hrepr, hfits, k, hk, rfl, rfl⟩ := htarget
  obtain ⟨-, hst⟩ := execEncode_stamps h (execEncode_accepts h hcfg hrepr hfits)
  obtain ⟨old', -, hold', hnew⟩ := hst.at_bit k (Nat.zero_le k) hk
  obtain rfl : old' = old := Option.some.inj (hold'.symm.trans hold)
  exact hnew

/-- And so has a DECODE. -/
theorem read_msg_of_decodeTarget {s t : State} (h : execDecode s = .next t) {i c : Nat} (htarget : DecodeTarget s i c) :
    Memory.read t.msg i = some c := by
  obtain ⟨hcfg, hfits, hi, rfl⟩ := htarget
  obtain ⟨-, rfl⟩ := execDecode_success h (execDecode_accepts h hcfg hfits)
  rw [decoded_msg_read, if_pos hi]

/-! The statements -/

/-- Settles O47 (R152, and log 12 for targets that are not there): the step is `abandoned`, and what it leaves of each
memory is old or a target. -/
theorem abandonedOperationAlwaysAnswers : Obligations.AbandonedOperationAlwaysAnswers := by
  intro s v rest hinv hscript hv
  have hinv' := hinv.script rest
  refine ⟨_, step_resetDuring_of_lt hscript hv, readReg_abandoned v _, abandoned_script v _, abandoned_params v _,
    fun a hnone => ?_, fun a old hold => ?_, fun i => ?_⟩
  · rcases abandoned_pix_read hinv' v a with hsame | ⟨-, old, -, hold, -⟩
    · exact hsame.trans hnone
    · exact absurd (hnone.symm.trans hold) nofun
  · obtain ⟨new, hnew, hhigh, hsame | ⟨hv2, hcfg, hrepr, hfits, k, hk, ha, hbyte⟩⟩ :=
      abandoned_pix_high_bits hinv' v hold
    · exact ⟨new, hnew, hhigh, Or.inl hsame⟩
    · refine ⟨new, hnew, hhigh, Or.inr ⟨hv2, hcfg, hrepr, hfits, k, hk, ha, ?_⟩⟩
      rw [hbyte, overwriteLsb_getLsbD, if_pos rfl]
      rfl
  · refine (abandoned_msg_read hinv' v i).imp_right fun ⟨hv3, c, hnew, htarget⟩ => ?_
    obtain ⟨hcfg, hfits, hi, rfl⟩ := decodeTarget_script.1 htarget
    exact ⟨hv3, hcfg, hfits, hi, hnew⟩

/-- Settles O40 (R152): what the reset leaves of each memory is old or a target, and an operation that answers has written
its targets. -/
theorem abandonedOperationOldOrNew : Obligations.AbandonedOperationOldOrNew := by
  intro s t v i rest hinv hscript hv hdec hexec
  have hinv' := hinv.script rest
  refine ⟨_, step_resetDuring_of_lt hscript hv, readReg_abandoned v _, fun a => ?_, fun a => ?_, fun a old hold => ?_⟩
  · refine (abandoned_pix_read hinv' v a).imp_right fun ⟨hv2, old, new, hold, hnew, htarget⟩ => ?_
    rw [hv2, decodeValue_two] at hdec
    cases hdec
    rw [hnew, read_pix_of_encodeTarget hexec hold htarget]
  · refine (abandoned_msg_read hinv' v a).imp_right fun ⟨hv3, c, hnew, htarget⟩ => ?_
    rw [hv3, decodeValue_three] at hdec
    cases hdec
    rw [hnew, read_msg_of_decodeTarget hexec htarget]
  · obtain ⟨new, hnew, hhigh, -⟩ := abandoned_pix_high_bits hinv' v hold
    exact ⟨new, hnew, hhigh⟩

end Sys2Proof.Machine
end

section
/-! PROOFS. The effects of a step, and what every one of them keeps: the parameters (R6) and the invariant. -/

namespace Sys2Proof.Machine

/-! What a step can do -/

/-- The effects a step can have on the state, one after the other: what the script, the bus, a command and a reset do to it. -/
inductive Effect (s : State) : State → Prop where
  | scriptTaken (rest : List Event) : Effect s { s with script := rest }
  | operation {i : Instr} {t : State} (h : exec i s = .next t) : Effect s t
  | badCommand : Effect s (complete ErrorKind.badCommand.code s)
  | registerWritten (r : Reg) {v : Nat} (hv : v < 2 ^ s.params.xlen) : Effect s (writeReg r v s)
  | pixelWritten {off : Nat} (v : Byte) (hoff : off < s.params.pixBytes) :
    Effect s { s with pix := Memory.write s.pix off v }
  | elementWritten {i v : Nat} (hi : i < s.params.msgDepth) (hv : v < 2 ^ s.params.cpw) :
    Effect s { s with msg := Memory.write s.msg i v }
  | valueReturned (v : Nat) : Effect s (returned v s)
  | reset : Effect s (resetRegisters s)
  | abandoned (v : Nat) : Effect s (abandoned v s)

/-- Any number of effects. -/
abbrev Effects : State → State → Prop := Relation.ReflTransGen Effect

theorem command_effect {v : Nat} {s t : State} (h : command v s = .next t) : Effect s t := by
  unfold command at h
  split at h
  · exact .operation h
  · rw [raise_eq_next.1 h]
    exact .badCommand

theorem regWrite_effects {offset v : Nat} {s t : State} (hv : v < 2 ^ s.params.xlen)
    (h : regWrite offset v s = .next t) : Effects s t := by
  unfold regWrite at h
  split at h
  · exact .single (command_effect h)
  · cases h
    exact .single (.registerWritten _ hv)
  · cases h
    exact .refl

theorem transact_effects {tr : Transaction} {s t : State} (h : transact tr s = .next t) : Effects s t := by
  cases tr with
  | regWrite offset size v =>
    simp only [transact] at h
    split at h
    · obtain ⟨hv, hwrite⟩ := whenFits_eq_next.1 h
      exact regWrite_effects hv hwrite
    · cases h
  | regRead offset size =>
    simp only [transact] at h
    split at h
    · cases h
      exact .single (.valueReturned _)
    · cases h
  | pixWrite offset v =>
    obtain ⟨hoff, rfl⟩ := writePix_eq_next.1 h
    exact .single (.pixelWritten v hoff)
  | pixRead offset =>
    obtain ⟨v, -, hv⟩ := andThen_eq_next.1 h
    cases hv
    exact .single (.valueReturned _)
  | msgWrite i v =>
    obtain ⟨hv, hwrite⟩ := whenFits_eq_next.1 h
    obtain ⟨hi, rfl⟩ := writeMsg_eq_next.1 hwrite
    exact .single (.elementWritten hi hv)
  | msgRead i =>
    obtain ⟨v, -, hv⟩ := andThen_eq_next.1 h
    cases hv
    exact .single (.valueReturned _)

theorem transactAll_effects {trs : List Transaction} {s t : State} (h : transactAll trs s = .next t) : Effects s t := by
  induction trs generalizing s with
  | nil =>
    cases h
    exact .refl
  | cons tr trs ih =>
    obtain ⟨s', hfirst, hrest⟩ := andThen_eq_next.1 h
    exact (transact_effects hfirst).trans (ih hrest)

theorem sharedCommand_effects {v : Nat} {others : List Transaction} {s t : State}
    (h : sharedCommand v others s = .next t) : Effects s t := by
  unfold sharedCommand at h
  split at h
  · cases h
  · obtain ⟨s', hcommand, hothers⟩ := andThen_eq_next.1 h
    obtain ⟨-, hcommand⟩ := whenFits_eq_next.1 hcommand
    exact .head (command_effect hcommand) (transactAll_effects hothers)

theorem perform_effects {e : Event} {s t : State} (h : perform e s = .next t) : Effects s t := by
  cases e with
  | access tr => exact transact_effects h
  | shared v others => exact sharedCommand_effects h
  | reset =>
    cases h
    exact .single .reset
  | resetDuring v =>
    obtain ⟨-, hnext⟩ := whenFits_eq_next.1 h
    cases hnext
    exact .single (.abandoned v)

theorem step_effects {s t : State} (h : step s = .next t) : Effects s t := by
  cases hscript : s.script with
  | nil =>
    simp only [step, takeEvent, hscript] at h
    cases h
    exact .refl
  | cons e rest =>
    rw [step_next_event hscript] at h
    exact .head (.scriptTaken rest) (perform_effects h)

/-- What every effect keeps, every step keeps. -/
theorem step_keeps {P : State → Prop} (hkeeps : ∀ s t, Effect s t → P s → P t) {s t : State} (hs : P s)
    (h : step s = .next t) : P t := by
  have heffects := step_effects h
  clear h
  induction heffects with
  | refl => exact hs
  | tail _ heffect ih => exact hkeeps _ _ heffect ih

/-! The invariant, kept -/

@[simp] theorem readReg_complete (e : BitVec 3) (s : State) (r : Reg) :
    readReg (complete e s) r = if r = .status then statusWord e else readReg s r := by
  cases r <;> rfl

/-- The RW registers (R21). -/
def writableRegs : List Reg := [.width, .height, .channels, .stride, .bpc, .hdrbits, .msglen, .bitidx]

/-- A read after a host write, in one equation: CMD and the RO registers store nothing (R21, R22). -/
theorem readReg_writeReg (r r' : Reg) (v : Nat) (s : State) :
    readReg (writeReg r v s) r' = if r' = r ∧ r ∈ writableRegs then v else readReg s r' := by
  cases r <;> cases r' <;> rfl

section
variable {s : State} (h : s.Inv)
include h

/-- A change of registers and of the model's own fields keeps the invariant when it keeps the registers' ranges. -/
theorem State.Inv.of_registers {t : State} (hparams : t.params = s.params) (hpix : t.pix = s.pix) (hmsg : t.msg = s.msg)
    (hregs : ∀ r, readReg t r < 2 ^ s.params.xlen) (hstatus : t.status ≤ 6) (hk : t.k < 2 ^ (s.params.xlen + 4)) :
    t.Inv where
  params := hparams ▸ h.params
  registers := hparams ▸ hregs
  status := hstatus
  counter := hparams ▸ hk
  pixForm := hpix ▸ h.pixForm
  pixUnits := by
    rw [hparams, hpix]
    exact h.pixUnits
  msgForm := hmsg ▸ h.msgForm
  msgUnits := by
    rw [hparams, hmsg]
    exact h.msgUnits

theorem State.Inv.withPix {pix : List Host.Cell} (hpix : PixCanonical { s with pix := pix }) :
    ({ s with pix := pix } : State).Inv :=
  ⟨h.params, h.registers, h.status, h.counter, hpix.1, hpix.2, h.msgForm, h.msgUnits⟩

theorem State.Inv.withMsg {msg : List (Nat × Nat)} (hmsg : MsgCanonical { s with msg := msg }) :
    ({ s with msg := msg } : State).Inv :=
  ⟨h.params, h.registers, h.status, h.counter, h.pixForm, h.pixUnits, hmsg.1, hmsg.2⟩

theorem State.Inv.six_lt : 6 < 2 ^ s.params.xlen := by
  have hxlen := h.params.xlen
  omega

theorem State.Inv.complete {e : BitVec 3} (he : statusWord e ≤ 6) : (complete e s).Inv := by
  refine h.of_registers rfl rfl rfl (fun r => ?_) he h.counter
  rw [readReg_complete]
  split
  · exact he.trans_lt h.six_lt
  · exact h.registers r

theorem State.Inv.resetRegisters : (resetRegisters s).Inv := by
  have hxlen := h.params.xlen
  refine h.of_registers rfl rfl rfl (fun r => ?_) (Nat.zero_le 6) (Nat.two_pow_pos _)
  rw [readReg_resetRegisters]
  split <;> omega

theorem State.Inv.writeReg (r : Reg) {v : Nat} (hv : v < 2 ^ s.params.xlen) : (writeReg r v s).Inv := by
  obtain ⟨hstatus, hk, hpix, hmsg, hparams, -⟩ := writeReg_frame r v s
  refine h.of_registers hparams hpix hmsg (fun r' => ?_) (hstatus ▸ h.status) (hk ▸ h.counter)
  rw [readReg_writeReg]
  split
  · exact hv
  · exact h.registers r'

theorem State.Inv.returned (v : Nat) : (returned v s).Inv :=
  h.of_registers rfl rfl rfl h.registers h.status h.counter

theorem State.Inv.writePix {off : Nat} (v : Byte) (hoff : off < s.params.pixBytes) :
    ({ s with pix := Memory.write s.pix off v } : State).Inv :=
  h.withPix ⟨Memory.write_wf _ _ _ h.pixForm, Memory.write_every _ _ _ _ (by simpa using hoff) h.pixUnits⟩

theorem State.Inv.writeMsg {i v : Nat} (hi : i < s.params.msgDepth) (hv : v < 2 ^ s.params.cpw) :
    ({ s with msg := Memory.write s.msg i v } : State).Inv :=
  h.withMsg ⟨Memory.write_wf _ _ _ h.msgForm, Memory.write_every _ _ _ _ (by simp [hi, hv]) h.msgUnits⟩

/-- Both memories are mixed from canonical ones (R152). -/
theorem State.Inv.abandoned (v : Nat) : (abandoned v s).Inv := by
  obtain ⟨-, hpixUnits⟩ := commandTargets_pixCanonical h v
  obtain ⟨-, hmsgUnits⟩ := commandTargets_msgCanonical h v
  have hpix := h.withPix (pix := Memory.mix (Config.landed s.draws) s.pix (commandTargets v s).pix)
    ⟨Memory.mix_wf _ _ _ h.pixForm, Memory.mix_every _ _ _ _ h.pixUnits hpixUnits⟩
  have hmsg := hpix.withMsg (msg := Memory.mix (Config.landed s.draws) s.msg (commandTargets v s).msg)
    ⟨Memory.mix_wf _ _ _ h.msgForm, Memory.mix_every _ _ _ _ h.msgUnits hmsgUnits⟩
  exact (hmsg.of_registers (t := { s with pix := _, msg := _, draws := s.draws + 1 }) rfl rfl rfl hmsg.registers
    hmsg.status hmsg.counter).resetRegisters

/-- The counter after a stream of `n` characters (R30): HDRBITS and `n` are below 2^XLEN, a character has at most 8 bits. -/
theorem State.Inv.stream_lt (hcfg : cfgCodecOk s = true) {n : Nat} (hn : n < 2 ^ s.params.xlen) :
    s.hdrbits + n * s.bpc < 2 ^ (s.params.xlen + 4) := by
  obtain ⟨-, -, -, hbpc, -⟩ := cfgCodecOk_iff.1 hcfg
  have hhdr : s.hdrbits < 2 ^ s.params.xlen := h.registers .hdrbits
  have hpayload : n * s.bpc ≤ n * 8 := Nat.mul_le_mul_left n (by omega)
  rw [Nat.pow_add]
  omega

/-- A length the header spells fits MSGLEN (R33). -/
theorem State.Inv.carriedLength_lt (hcfg : cfgCodecOk s = true) : carriedLength s < 2 ^ s.params.xlen := by
  obtain ⟨-, -, -, -, -, hhdr⟩ := cfgCodecOk_iff.1 hcfg
  exact (carriedField_lt s 0 s.hdrbits).trans_le (Nat.pow_le_pow_right (by decide) (hhdr.trans h.params.hbMax))

theorem State.Inv.locate (hcfg : cfgLocateOk s = true) :
    ({ s with
      locCh := s.bitidx % s.channels
      locCol := s.bitidx / s.channels % s.width
      locRow := s.bitidx / (s.width * s.channels) } : State).Inv := by
  obtain ⟨hw, hc⟩ := cfgLocateOk_iff.1 hcfg
  obtain ⟨hch, hcol, hrow⟩ := locate_lt_of_operands_lt hw hc (h.registers .bitidx) (h.registers .width)
    (h.registers .channels)
  refine h.of_registers rfl rfl rfl (fun r => ?_) h.status h.counter
  have hr := h.registers r
  cases r with
  | locCh => exact hch
  | locCol => exact hcol
  | locRow => exact hrow
  | _ => exact hr

theorem State.Inv.encoded {t : State} (hexec : execEncode s = .next t) (hok : t.status = 0) : t.Inv := by
  obtain ⟨hcfg, -, -, hemit⟩ := execEncode_success hexec hok
  obtain ⟨ht, -⟩ := execEncode_stamps hexec hok
  have hcanonical : PixCanonical { s with pix := t.pix } := by
    have ht' := emitStream_pixCanonical hemit h.pixCanonical
    rw [ht] at ht'
    exact ht'
  have hpix := h.withPix hcanonical
  rw [ht]
  refine hpix.of_registers rfl rfl rfl (fun r => ?_) (Nat.zero_le 6) (h.stream_lt hcfg (h.registers .msglen))
  have hr := h.registers r
  cases r with
  | status => exact Nat.two_pow_pos _
  | _ => exact hr

theorem State.Inv.decoded (hready : DecodeReady s) : (decoded s).Inv := by
  have hlen := h.carriedLength_lt hready.legal
  have hunit : ∀ i, i < 0 + carriedLength s →
      (decide (i < s.params.msgDepth) && decide (carriedChar s i < 2 ^ s.params.cpw)) = true := fun i hi => by
    have hinside := hready.elements
    have hchar : carriedChar s i < 2 ^ s.params.cpw :=
      (carriedField_lt s _ s.bpc).trans_le (h.two_pow_bpc_le hready.legal)
    simp only [Bool.and_eq_true, decide_eq_true_eq]
    exact ⟨by omega, hchar⟩
  have hmsg := h.withMsg ⟨Memory.writeRange_wf h.msgForm, Memory.writeRange_every hunit h.msgUnits⟩
  refine hmsg.of_registers rfl rfl rfl (fun r => ?_) (Nat.zero_le 6) (h.stream_lt hready.legal hlen)
  have hr := h.registers r
  cases r with
  | status => exact Nat.two_pow_pos _
  | msglen => exact hlen
  | _ => exact hr

theorem State.Inv.exec {i : Instr} {t : State} (hexec : exec i s = .next t) : t.Inv := by
  rcases exec_ok_or_raises hexec with hok | ⟨e, -, rfl⟩
  · cases i with
    | locate =>
      rcases execLocate_cases hexec with ⟨hcfg, rfl⟩ | ⟨-, rfl⟩
      · exact (h.locate hcfg).complete (by decide)
      · exact h.complete (statusWord_le _)
    | encode => exact h.encoded hexec hok
    | decode =>
      obtain ⟨hready, rfl⟩ := execDecode_success hexec hok
      exact h.decoded hready
  · exact h.complete (statusWord_le e)

end

theorem Effect.keeps_inv {s t : State} (heffect : Effect s t) (h : s.Inv) : t.Inv := by
  cases heffect with
  | scriptTaken rest => exact h.script rest
  | operation hexec => exact h.exec hexec
  | badCommand => exact h.complete (statusWord_le _)
  | registerWritten r hv => exact h.writeReg r hv
  | pixelWritten v hoff => exact h.writePix v hoff
  | elementWritten hi hv => exact h.writeMsg hi hv
  | valueReturned v => exact h.returned v
  | reset => exact h.resetRegisters
  | abandoned v => exact h.abandoned v

/-! The parameters, kept -/

theorem exec_params {i : Instr} {s t : State} (h : exec i s = .next t) : t.params = s.params := by
  have hframe := operationsWriteOnlyTheirResults i s t h
  cases i with
  | locate => rw [hframe]
  | encode => rw [hframe.1]
  | decode => rw [hframe.1]

theorem Effect.keeps_params {s t : State} (heffect : Effect s t) : t.params = s.params := by
  cases heffect with
  | operation hexec => exact exec_params hexec
  | registerWritten r _ =>
    obtain ⟨-, -, -, -, hparams, -⟩ := writeReg_frame r _ s
    exact hparams
  | _ => rfl

/-! The statements -/

/-- Settles O36 (R8, R10, R21, R23, R37): the invariant is one of the properties that every effect keeps. -/
theorem stepKeepsInvariant : Obligations.StepKeepsInvariant :=
  fun _ _ hs h => step_keeps (fun _ _ => Effect.keeps_inv) hs h

/-- Settles O49 (R6): no effect writes the parameters. -/
theorem parametersNeverChange : Obligations.ParametersNeverChange :=
  fun s _ h => step_keeps (P := fun t => t.params = s.params)
    (fun _ _ heffect hparams => heffect.keeps_params.trans hparams) rfl h

/-- Settles O38 (R38, R6; log 7 for the memories): the fields of `State.reset`. -/
theorem resetRegisterValues : Obligations.ResetRegisterValues :=
  ⟨fun r => by cases r <;> rfl, Memory.read_nil, Memory.read_nil, rfl, rfl, rfl⟩

/-- Settles O37 (R38): the registers are 0 or 32, below 2^32, and the memories are empty. -/
theorem resetMeetsInvariant : Obligations.ResetMeetsInvariant where
  params := ⟨(by decide : 32 < 2 ^ 32), le_refl 32, (by decide : 8 < 32)⟩
  registers r := by
    obtain ⟨hreset, -⟩ := resetRegisterValues
    have hxlen : State.reset.params.xlen = 32 := rfl
    rw [hreset r, hxlen]
    split <;> decide
  status := Nat.zero_le 6
  counter := Nat.two_pow_pos _
  pixForm := rfl
  pixUnits := rfl
  msgForm := rfl
  msgUnits := rfl

end Sys2Proof.Machine
end

section
/-! PROOFS. Raster order, and the one-bit accesses at the offset of R42 (R44, R45, R83). -/

namespace Sys2Proof.Machine

/-- Settles O11 (R83): the next triple in each case is one in range, and its index is the next one. -/
theorem locateRasterOrder : Obligations.LocateRasterOrder := by
  intro n w c hw hc
  have hindex := locate_index n w c
  have hch := locate_channel_lt n w hc
  have hcol := locate_col_lt n c hw
  generalize locate n w c = l at *
  obtain ⟨ch, col, row⟩ := l
  simp only at *
  subst hindex
  split
  · next hnext => exact locate_of_index hnext hcol row
  · next hlast =>
    obtain rfl : c = ch + 1 := by omega
    split
    · next hnext =>
      have hn : row * (w * (ch + 1)) + col * (ch + 1) + ch + 1 = row * (w * (ch + 1)) + (col + 1) * (ch + 1) + 0 := by
        ring
      rw [hn]
      exact locate_of_index hc hnext row
    · next hlastcol =>
      obtain rfl : w = col + 1 := by omega
      have hn : row * ((col + 1) * (ch + 1)) + col * (ch + 1) + ch + 1
          = (row + 1) * ((col + 1) * (ch + 1)) + 0 * (ch + 1) + 0 := by ring
      rw [hn]
      exact locate_of_index hc hw (row + 1)

/-- Settles O12 (R44): the offset is `bitOffset`, and the write is the overwrite rule. -/
theorem putStoresOneBit : Obligations.PutStoresOneBit := by
  intro s b l off old hl hoff hinside hold
  subst hl hoff
  refine ⟨_, _, putBit_eq_next.2 ⟨old, hinside, hold, rfl⟩, rfl, Memory.read_write_same _ _ _, ?_, fun j hj => ?_,
    fun a ha => Memory.read_write_ne _ _ ha⟩
  · rw [overwriteLsb_getLsbD, if_pos rfl]
  · rw [overwriteLsb_getLsbD, if_neg (by omega)]

/-- Settles O13 (R45): the offset is `bitOffset`. -/
theorem getReadsOneBit : Obligations.GetReadsOneBit := by
  intro s l off v hl hoff hinside hv
  subst hl hoff
  exact getBit_eq_next.2 ⟨v, hinside, hv, rfl⟩

end Sys2Proof.Machine
end

section
/-! PROOFS. The host's accesses and the CMD write as steps (R20 to R22, R40 to R47, R62, R64). -/

namespace Sys2Proof.Machine

/-! The CMD write -/

theorem command_of_ok {v : Nat} {i : Instr} (h : decodeValue v = .ok i) (s : State) : command v s = exec i s := by
  simp only [command, h]

theorem command_of_illegal {v : Nat} (h1 : v ≠ 1) (h2 : v ≠ 2) (h3 : v ≠ 3) (s : State) :
    command v s = raise .badCommand s := by
  unfold command
  cases hv : decodeValue v with
  | error e => rfl
  | ok i =>
    have hdecoded := (onlyThreeWordsAreCommands.2 v i).1 hv
    omega

/-- Settles O4 (R22, R62; logs 1, 16): the CMD write runs `command`, which runs what the value decodes to. -/
theorem stepRunsDecodedInstruction : Obligations.StepRunsDecodedInstruction := by
  refine ⟨fun s v i rest hscript hv hdec => ?_, fun s i hxlen => ?_⟩
  · rw [step_cmdWrite hscript hv, command_of_ok hdec]
  · have hword : (encodeWord i).toNat % 2 ^ 32 = (encodeWord i).toNat := Nat.mod_eq_of_lt (encodeWord i).isLt
    have hsmall : (encodeWord i).toNat < 2 ^ 2 := by cases i <;> decide
    have hfits : (encodeWord i).toNat < 2 ^ s.params.xlen := hsmall.trans_le (Nat.pow_le_pow_right (by decide) hxlen)
    have hscript : (s.withFetchWord 32 (encodeWord i).toNat).script
        = .access (.regWrite 0x00 .word (encodeWord i).toNat) :: s.script := by
      simp only [State.withFetchWord, placeCommand, hword, regOffset]
    rw [step_cmdWrite hscript hfits, command_of_ok (decodeValue_eq_ok.2 rfl)]
    rfl

/-- Settles O5 (R64, R139; logs 14, 16): a value that is none of the three encodings does not decode. -/
theorem illegalCommandRaisesBadCommand : Obligations.IllegalCommandRaisesBadCommand := by
  intro s v rest hscript hv h1 h2 h3
  rw [step_cmdWrite hscript hv, command_of_illegal h1 h2 h3]
  rfl

/-- Settles O6 (R20). -/
theorem idleEngineChangesNothing : Obligations.IdleEngineChangesNothing := by
  intro s hscript
  simp only [step, takeEvent, hscript]

/-! The access to REG -/

theorem step_access {s : State} {t : Transaction} {rest : List Event} (h : s.script = .access t :: rest) :
    step s = transact t { s with script := rest } :=
  step_next_event h

theorem regAccessDefined_iff {offset : Nat} {size : AccessSize} :
    regAccessDefined offset size = true ↔ size = .word ∧ offset % 4 = 0 := by
  simp [regAccessDefined]

theorem whenFits_of_lt {α : Type} {width v : Nat} (h : v < 2 ^ width) (o : Result α) : whenFits width v o = o :=
  if_pos h

theorem whenFits_of_le {α : Type} {width v : Nat} (h : 2 ^ width ≤ v) (o : Result α) :
    whenFits width v o = .refused (.valueTooWide v) :=
  if_neg (Nat.not_lt.2 h)

theorem transact_regWrite_word {offset : Nat} (h : offset % 4 = 0) (v : Nat) (s : State) :
    transact (.regWrite offset .word v) s = whenFits s.params.xlen v (regWrite offset v s) :=
  if_pos (regAccessDefined_iff.2 ⟨rfl, h⟩)

theorem transact_regRead_word {offset : Nat} (h : offset % 4 = 0) (s : State) :
    transact (.regRead offset .word) s = .next (returned (regRead offset s) s) :=
  if_pos (regAccessDefined_iff.2 ⟨rfl, h⟩)

theorem regOffset_aligned (r : Reg) : regOffset r % 4 = 0 := by cases r <;> rfl

theorem regWrite_regOffset {r : Reg} (h : r ≠ .cmd) (v : Nat) (s : State) :
    regWrite (regOffset r) v s = .next (writeReg r v s) := by
  rw [regWrite, regAt_regOffset]
  cases r with
  | cmd => exact absurd rfl h
  | _ => rfl

theorem regRead_regOffset (r : Reg) (s : State) : regRead (regOffset r) s = readReg s r := by
  rw [regRead, regAt_regOffset]

theorem regOffset_of_regAt {offset : Nat} {r : Reg} (h : regAt offset = some r) : regOffset r = offset := by
  unfold regAt at h
  split at h <;> cases h <;> rfl

theorem regOffset_le (r : Reg) : regOffset r ≤ 0x30 := by cases r <;> decide

/-- Every offset above that of LOC_ROW is reserved (log 9). -/
theorem regAt_reserved {offset : Nat} (h : 0x30 < offset) : regAt offset = none := by
  cases hr : regAt offset with
  | none => rfl
  | some r =>
    have hle := regOffset_le r
    rw [regOffset_of_regAt hr] at hle
    omega

theorem writeReg_readData (r : Reg) (v : Nat) (s : State) : (writeReg r v s).readData = s.readData := by
  cases r <;> rfl

/-- The host's write of a register other than CMD, as a step. -/
theorem step_regWrite {s : State} {r : Reg} {v : Nat} {rest : List Event} (hv : v < 2 ^ s.params.xlen) (hr : r ≠ .cmd)
    (h : s.script = .access (.regWrite (regOffset r) .word v) :: rest) :
    step s = .next (writeReg r v { s with script := rest }) := by
  rw [step_access h, transact_regWrite_word (regOffset_aligned r), whenFits_of_lt hv, regWrite_regOffset hr]

/-- Settles O41 (R21; logs 9, 16): a write is `writeReg`, a read is `readReg`, and a reserved offset has neither. -/
theorem hostRegisterAccess : Obligations.HostRegisterAccess := by
  refine ⟨rfl, fun s r v rest hv hr h => ?_, fun s r v rest hv hr h => ?_, fun s r rest h => ?_,
    fun s offset v rest haligned hoffset => ⟨fun h hv => ?_, fun h => ?_⟩⟩
  · have hcmd : r ≠ .cmd := fun e => absurd (e ▸ hr) (by decide)
    obtain ⟨-, hk, hpix, hmsg, -, hscript⟩ := writeReg_frame r v { s with script := rest }
    refine ⟨_, step_regWrite hv hcmd h, ?_, fun r' hr' => ?_, hpix, hmsg, hk, hscript, writeReg_readData r v _⟩
    · rw [readReg_writeReg, if_pos ⟨rfl, hr⟩]
    · rw [readReg_writeReg, if_neg fun hsame => hr' hsame.1]
      rfl
  · have hcmd : r ≠ .cmd := fun e => absurd (e ▸ hr) (by decide)
    rw [step_regWrite hv hcmd h]
    simp only [List.mem_cons, List.not_mem_nil, or_false] at hr
    rcases hr with rfl | rfl | rfl | rfl <;> rfl
  · rw [step_access h, transact_regRead_word (regOffset_aligned r), regRead_regOffset]
    cases r <;> rfl
  · rw [step_access h, transact_regWrite_word haligned, whenFits_of_lt hv, regWrite, regAt_reserved hoffset]
  · rw [step_access h, transact_regRead_word haligned, regRead, regAt_reserved hoffset]
    rfl

/-- Settles O42 (R47, U11; log 16): such an access is not a defined one. -/
theorem partialRegAccessRefused : Obligations.PartialRegAccessRefused := by
  intro s offset size v rest hpartial
  have hundefined : ¬ regAccessDefined offset size = true := by
    rw [regAccessDefined_iff]
    rintro ⟨hsize, haligned⟩
    exact hpartial.elim (fun h => h hsize) fun h => h haligned
  exact ⟨fun h => (step_access h).trans (if_neg hundefined), fun h => (step_access h).trans (if_neg hundefined)⟩

/-! The accesses to PIX and MSG -/

theorem transact_pixRead_of_written {s : State} {off : Nat} {v : Byte} (hinside : off < s.params.pixBytes)
    (hv : Memory.read s.pix off = some v) : transact (.pixRead off) s = .next (returned v.toNat s) := by
  rw [transact, readPix_eq_next.2 ⟨hinside, hv⟩, andThen_next]

theorem transact_pixRead_of_unwritten {s : State} {off : Nat} (hinside : off < s.params.pixBytes)
    (hnone : Memory.read s.pix off = none) : transact (.pixRead off) s = .fault (.pixUnwritten off) := by
  rw [transact, readPix, if_pos hinside, hnone]
  rfl

theorem transact_pixRead_outside {s : State} {off : Nat} (h : s.params.pixBytes ≤ off) :
    transact (.pixRead off) s = .fault (.pixOutside off) := by
  rw [transact, readPix, if_neg (Nat.not_lt.2 h)]
  rfl

theorem transact_msgRead_of_written {s : State} {i : Nat} {v : Nat} (hinside : i < s.params.msgDepth)
    (hv : Memory.read s.msg i = some v) : transact (.msgRead i) s = .next (returned v s) := by
  rw [transact, readMsg_eq_next.2 ⟨hinside, hv⟩, andThen_next]

theorem transact_msgRead_of_unwritten {s : State} {i : Nat} (hinside : i < s.params.msgDepth)
    (hnone : Memory.read s.msg i = none) : transact (.msgRead i) s = .fault (.msgUnwritten i) := by
  rw [transact, readMsg, if_pos hinside, hnone]
  rfl

theorem transact_msgRead_outside {s : State} {i : Nat} (h : s.params.msgDepth ≤ i) :
    transact (.msgRead i) s = .fault (.msgOutside i) := by
  rw [transact, readMsg, if_neg (Nat.not_lt.2 h)]
  rfl

/-- Settles O43 (R41; logs 7, 8): each access by the law of the memory and by the side of the window test. -/
theorem pixelMemoryAccess : Obligations.PixelMemoryAccess := by
  refine ⟨fun s off v rest h => ?_, fun s off rest h => ?_⟩
  · rw [step_access h]
    exact ⟨fun hinside => ⟨_, writePix_eq_next.2 ⟨hinside, rfl⟩, rfl, fun a => Memory.read_write _ _ _ _⟩,
      fun houtside => if_neg (Nat.not_lt.2 houtside)⟩
  · rw [step_access h]
    exact ⟨fun v hinside hv => transact_pixRead_of_written hinside hv,
      fun hinside hnone => transact_pixRead_of_unwritten hinside hnone, fun houtside => transact_pixRead_outside houtside⟩

/-- Settles O44 (R37, R43; logs 7, 8): as for PIX, once the value fits an element. -/
theorem messageMemoryAccess : Obligations.MessageMemoryAccess := by
  refine ⟨fun s i v rest h hv => ?_, fun s i rest h => ?_⟩
  · rw [step_access h, transact, whenFits_of_lt hv]
    exact ⟨fun hinside => ⟨_, writeMsg_eq_next.2 ⟨hinside, rfl⟩, rfl, fun a => Memory.read_write _ _ _ _⟩,
      fun houtside => if_neg (Nat.not_lt.2 houtside)⟩
  · rw [step_access h]
    exact ⟨fun v hinside hv => transact_msgRead_of_written hinside hv,
      fun hinside hnone => transact_msgRead_of_unwritten hinside hnone, fun houtside => transact_msgRead_outside houtside⟩

/-! Other agents while a command runs (R52, R62, R154) -/

/-- The access breaks the rule of the command `v`. -/
def breachesCommand (s : State) (v : Nat) (t : Transaction) : Bool :=
  match decodeValue v with
  | .ok i => breaksExclusion s i t
  | .error _ => touchesRegister t

theorem firstBreach_eq_find (s : State) (v : Nat) (others : List Transaction) :
    firstBreach s v others = others.find? (breachesCommand s v) := by
  unfold firstBreach breachesCommand
  cases decodeValue v <;> rfl

theorem breachesCommand_of_ok {v : Nat} {i : Instr} (h : decodeValue v = .ok i) (s : State) (t : Transaction) :
    breachesCommand s v t = breaksExclusion s i t := by
  rw [breachesCommand, h]

theorem breachesCommand_of_touchesRegister (s : State) (v : Nat) {t : Transaction} (h : touchesRegister t = true) :
    breachesCommand s v t = true := by
  unfold breachesCommand
  cases decodeValue v with
  | ok i =>
    cases t with
    | regWrite offset size value => rfl
    | regRead offset size => rfl
    | _ => cases h
  | error e => exact h

theorem step_shared {s : State} {v : Nat} {others : List Transaction} {rest : List Event}
    (h : s.script = .shared v others :: rest) : step s = sharedCommand v others { s with script := rest } :=
  step_next_event h

/-- One breach among the accesses is enough: the first one is refused (U8, D25). -/
theorem sharedCommand_refuses {s : State} {v : Nat} {others : List Transaction} {a : Transaction} (ha : a ∈ others)
    (hbreach : breachesCommand s v a = true) :
    ∃ r, r ∈ others ∧ sharedCommand v others s = .refused (.sharedAccess r) := by
  obtain ⟨r, hr⟩ := Option.isSome_iff_exists.1 (List.find?_isSome.2 ⟨a, ha, hbreach⟩)
  refine ⟨r, List.mem_of_find?_eq_some hr, ?_⟩
  rw [sharedCommand, firstBreach_eq_find, hr]

/-- Without a breach the command runs, and the others' accesses after it (log 10). -/
theorem sharedCommand_of_no_breach {s : State} {v : Nat} {others : List Transaction}
    (h : ∀ t, t ∈ others → breachesCommand s v t = false) :
    sharedCommand v others s = andThen (whenFits s.params.xlen v (command v s)) fun s' => transactAll others s' := by
  have hnone : others.find? (breachesCommand s v) = none :=
    List.find?_eq_none.2 fun t ht => by rw [h t ht]; exact Bool.false_ne_true
  rw [sharedCommand, firstBreach_eq_find, hnone]

/-- Settles O45 (R52, R62, R154, U8; log 17): each of the named accesses is a breach. -/
theorem exclusiveAccessRefusal : Obligations.ExclusiveAccessRefusal := by
  intro s v others rest a hscript ha hbreach
  rw [step_shared hscript]
  refine sharedCommand_refuses ha ?_
  rcases hbreach with ⟨rfl, off, hoff, rfl | ⟨b, rfl⟩⟩ | ⟨rfl, ⟨off, b, hoff, rfl⟩ | ⟨i, rfl⟩⟩ | ⟨hv, i, m, rfl⟩ |
    ⟨off, size, rfl | ⟨m, rfl⟩⟩
  · rw [breachesCommand_of_ok decodeValue_two]
    exact decide_eq_true hoff
  · rw [breachesCommand_of_ok decodeValue_two]
    exact decide_eq_true hoff
  · rw [breachesCommand_of_ok decodeValue_three]
    exact decide_eq_true hoff
  · rw [breachesCommand_of_ok decodeValue_three]
    rfl
  · rcases hv with rfl | rfl | rfl
    · rw [breachesCommand_of_ok decodeValue_one, breaksExclusion]
    · rw [breachesCommand_of_ok decodeValue_two, breaksExclusion]
    · rw [breachesCommand_of_ok decodeValue_three, breaksExclusion]
  · exact breachesCommand_of_touchesRegister _ v rfl
  · exact breachesCommand_of_touchesRegister _ v rfl

/-- Reads of written bytes of PIX leave nothing but what the last of them returned. -/
theorem transactAll_pixReads {offs : List Nat} {s : State}
    (h : ∀ off, off ∈ offs → off < s.params.pixBytes ∧ (Memory.read s.pix off).isSome = true) :
    ∃ u, transactAll (offs.map .pixRead) s = .next u ∧ u = { s with readData := u.readData } := by
  induction offs generalizing s with
  | nil => exact ⟨s, rfl, rfl⟩
  | cons off offs ih =>
    obtain ⟨hinside, hsome⟩ := h off List.mem_cons_self
    obtain ⟨v, hv⟩ := Option.isSome_iff_exists.1 hsome
    obtain ⟨u, hrest, hu⟩ := ih (s := returned v.toNat s) fun off' hoff' => h off' (List.mem_cons_of_mem _ hoff')
    refine ⟨u, ?_, hu⟩
    rw [List.map_cons, transactAll, transact_pixRead_of_written hinside hv, andThen_next, hrest]

/-- Settles O46 (R52; logs 2, 10, 17): a read of PIX is no breach under DECODE, which leaves PIX and the parameters. -/
theorem decodeSharesReads : Obligations.DecodeSharesReads := by
  intro s t offs rest hscript hxlen hreads hexec
  have hno : ∀ a, a ∈ offs.map Transaction.pixRead → breachesCommand { s with script := rest } 3 a = false := by
    intro a ha
    obtain ⟨off, -, rfl⟩ := List.mem_map.1 ha
    rw [breachesCommand_of_ok decodeValue_three]
    rfl
  have hfits : 3 < 2 ^ s.params.xlen := (by decide : 3 < 2 ^ 2).trans_le (Nat.pow_le_pow_right (by decide) hxlen)
  have hpix : t.pix = s.pix := execDecode_pix (s := { s with script := rest }) hexec
  have hparams : t.params = s.params := exec_params (s := { s with script := rest }) hexec
  obtain ⟨u, hothers, hu⟩ := transactAll_pixReads (s := t) (by rw [hpix, hparams]; exact hreads)
  refine ⟨u, ?_, hu⟩
  rw [step_shared hscript, sharedCommand_of_no_breach hno, whenFits_of_lt hfits, command_of_ok decodeValue_three, hexec,
    andThen_next, hothers]

/-- Settles O48 (R10, R21, R37; logs 6, 16): in each of the four events the value meets `whenFits` first. -/
theorem tooWideValuesRefused : Obligations.TooWideValuesRefused := by
  refine ⟨fun s offset v rest haligned hwide h => ?_, fun s i v rest hwide h => ?_,
    fun s v rest hwide => ⟨fun h => ?_, fun h => ?_⟩⟩
  · rw [step_access h, transact_regWrite_word haligned, whenFits_of_le hwide]
  · rw [step_access h, transact, whenFits_of_le hwide]
  · rw [step_resetDuring h, whenFits_of_le hwide]
  · rw [step_shared h, sharedCommand_of_no_breach fun _ ht => absurd ht List.not_mem_nil, whenFits_of_le hwide]
    rfl

end Sys2Proof.Machine
end
